-- ==== Sys2Proof/Word.lean ====
section
/-! DEFINITION. The one word of the engine: an unsigned 8-bit byte (00_scope.md R7), and the reduction modulo 256. -/

namespace Sys2Proof

/-- A register value, memory cell, operand byte or immediate: an unsigned integer 0..255 (R7). -/
abbrev Byte := BitVec 8

/-- `v mod 256`: the reduction every register write applies to the exact natural-number result (R7, R13). -/
abbrev wrap (v : Nat) : Byte := BitVec.ofNat 8 v

end Sys2Proof
end

