-- ==== Sys2Proof/Config.lean ====
section
/-! DEFINITION. The implementation parameters of 00_scope.md R5: the fixed opcode bytes they must differ from, and the seven
open parameters an engine instance is built with (SP_INIT and the six OPC_ bytes). The values `State.reset` and `step` use
are `Config.defaults` in Decode.lean. -/

namespace Sys2Proof

/-- The 14 opcode bytes whose pattern the source gives (30_encoding.md R54), in R60's order:
LDI, MUL, PRN, PUSH, POP, CALL, RET, ADD, CMP, JMP, JEQ, JNE, NOT, HLT. -/
def givenOpcodes : List Byte :=
  [0x82#8, 0xA2#8, 0x47#8, 0x45#8, 0x46#8, 0x50#8, 0x11#8, 0xA0#8, 0xA7#8, 0x54#8, 0x55#8, 0x56#8, 0x69#8, 0x01#8]

/-- The open parameters of an engine instance (R5), fixed for its life (R24). They are an argument of reset, of the decoder
and of a step, never part of State. R55: "The model must require the six to be distinct from one another and from the 14
bytes of rule R54"; `distinct` is that requirement, so a configuration that breaks it cannot be built. -/
structure Config where
  /-- SP_INIT, the initial value of the stack pointer (R5, D1). -/
  spInit : Byte
  /-- OPC_AND. -/
  opcAnd : Byte
  /-- OPC_OR. -/
  opcOr : Byte
  /-- OPC_XOR. -/
  opcXor : Byte
  /-- OPC_SHL. -/
  opcShl : Byte
  /-- OPC_SHR. -/
  opcShr : Byte
  /-- OPC_MOD. -/
  opcMod : Byte
  /-- The 20 opcode bytes are pairwise distinct (R55). -/
  distinct : (givenOpcodes ++ [opcAnd, opcOr, opcXor, opcShl, opcShr, opcMod]).Nodup
deriving DecidableEq, Repr

end Sys2Proof
end

