-- ==== Sys2Proof/Syntax.lean ====
section
/-! DEFINITION. The 20 instructions of 00_scope.md R9 and spec/opcode_table.json, one constructor per row. -/

namespace Sys2Proof

/-- An instruction with its operand bytes as they stand in memory. A register operand is the whole byte 0..255 (R56): an index
above 7 is an instruction like any other, whose register access raises InvalidRegister (R12). -/
inductive Instr where
  /-- LDI a, imm (R80). -/
  | ldi (a imm : Byte)
  /-- MUL a, b (R87). -/
  | mul (a b : Byte)
  /-- PRN a (R135). -/
  | prn (a : Byte)
  /-- PUSH a (R111). -/
  | push (a : Byte)
  /-- POP a (R112). -/
  | pop (a : Byte)
  /-- CALL a (R124). -/
  | call (a : Byte)
  /-- RET (R125). -/
  | ret
  /-- ADD a, b (R86). -/
  | add (a b : Byte)
  /-- CMP a, b (R95). -/
  | cmp (a b : Byte)
  /-- JMP a (R121). -/
  | jmp (a : Byte)
  /-- JEQ a (R122). -/
  | jeq (a : Byte)
  /-- JNE a (R123). -/
  | jne (a : Byte)
  /-- AND a, b (R88). -/
  | and (a b : Byte)
  /-- OR a, b (R89). -/
  | or (a b : Byte)
  /-- XOR a, b (R90). -/
  | xor (a b : Byte)
  /-- SHL a, b (R92). -/
  | shl (a b : Byte)
  /-- SHR a, b (R93). -/
  | shr (a b : Byte)
  /-- MOD a, b (R94). -/
  | mod (a b : Byte)
  /-- NOT a (R91). -/
  | not (a : Byte)
  /-- HLT (R136). -/
  | hlt
deriving DecidableEq, Repr

end Sys2Proof
end

