-- ==== Sys2Proof/WellFormed.lean ====
section
/-! DEFINITION. When an instruction names only registers that exist (30_encoding.md R56, R63). -/

namespace Sys2Proof

/-- The register operands of an instruction, in byte order (formats F1, F2, F2I of R51). LDI's second operand is an
immediate, not a register. -/
def Instr.registers : Instr → List Byte
  | .ldi a _ => [a]
  | .mul a b => [a, b]
  | .prn a => [a]
  | .push a => [a]
  | .pop a => [a]
  | .call a => [a]
  | .ret => []
  | .add a b => [a, b]
  | .cmp a b => [a, b]
  | .jmp a => [a]
  | .jeq a => [a]
  | .jne a => [a]
  | .and a b => [a, b]
  | .or a b => [a, b]
  | .xor a b => [a, b]
  | .shl a b => [a, b]
  | .shr a b => [a, b]
  | .mod a b => [a, b]
  | .not a => [a]
  | .hlt => []

/-- Every register operand is 0..7, the values that name R0..R7 (R56). The hardware decodes and runs ill-formed instructions
too (they fault at the access, R12); this is the check a program text in the notation of R63 passes. -/
def Instr.wellFormed (i : Instr) : Bool :=
  i.registers.all (fun r => decide (r.toNat < 8))

end Sys2Proof
end

