-- ==== Sys2Proof/Decode.lean ====
section
/-! DEFINITION. The default configuration, the opcode map (30_encoding.md R54, R55), the decoder (R53, R58, R60) and, after it,
the encoder written from the same map. -/

namespace Sys2Proof

/-- The configuration `State.reset`, `step` and `decodeTableWord` use. SP_INIT = 0xF4 is the document's example of a
conventional value (R5), DESIGN CHOICE, log 1, unsafe. The six opcode bytes are the defaults of R55, PRESUMED (the published
LS-8 set), log 2, unsafe. -/
def Config.defaults : Config where
  spInit := 0xF4#8
  opcAnd := 0xA8#8
  opcOr := 0xAA#8
  opcXor := 0xAB#8
  opcShl := 0xAC#8
  opcShr := 0xAD#8
  opcMod := 0xA4#8
  distinct := by decide

/-- The operation an opcode byte selects: one name per row of R54 and R55. -/
inductive Opcode where
  | ldi | mul | prn | push | pop | call | ret | add | cmp | jmp | jeq | jne | not | hlt
  | and | or | xor | shl | shr | mod
deriving DecidableEq, Repr

/-- The 20 rows, in the order of R60's case list: the 14 given patterns, then the six open parameters. -/
def Opcode.all : List Opcode :=
  [.ldi, .mul, .prn, .push, .pop, .call, .ret, .add, .cmp, .jmp, .jeq, .jne, .not, .hlt,
   .and, .or, .xor, .shl, .shr, .mod]

/-- The opcode byte of each row: R54's patterns, and the six OPC_ parameters of R55. -/
def Opcode.byte (cfg : Config) : Opcode → Byte
  | .ldi => 0b10000010#8
  | .mul => 0b10100010#8
  | .prn => 0b01000111#8
  | .push => 0b01000101#8
  | .pop => 0b01000110#8
  | .call => 0b01010000#8
  | .ret => 0b00010001#8
  | .add => 0b10100000#8
  | .cmp => 0b10100111#8
  | .jmp => 0b01010100#8
  | .jeq => 0b01010101#8
  | .jne => 0b01010110#8
  | .not => 0b01101001#8
  | .hlt => 0b00000001#8
  | .and => cfg.opcAnd
  | .or => cfg.opcOr
  | .xor => cfg.opcXor
  | .shl => cfg.opcShl
  | .shr => cfg.opcShr
  | .mod => cfg.opcMod

/-- The row whose byte is exactly `b`, "mask 0xFF, exact match" (R53); `none` is an unknown opcode (R58). -/
def Opcode.ofByte (cfg : Config) (b : Byte) : Option Opcode :=
  Opcode.all.find? (fun o => o.byte cfg == b)

/-- The instruction of a row with operand bytes `opA` at pc+1 and `opB` at pc+2 (formats of R51). A byte that is not part of
the instruction is ignored. -/
def Opcode.build : Opcode → Byte → Byte → Instr
  | .ldi, opA, opB => .ldi opA opB
  | .mul, opA, opB => .mul opA opB
  | .prn, opA, _ => .prn opA
  | .push, opA, _ => .push opA
  | .pop, opA, _ => .pop opA
  | .call, opA, _ => .call opA
  | .ret, _, _ => .ret
  | .add, opA, opB => .add opA opB
  | .cmp, opA, opB => .cmp opA opB
  | .jmp, opA, _ => .jmp opA
  | .jeq, opA, _ => .jeq opA
  | .jne, opA, _ => .jne opA
  | .not, opA, _ => .not opA
  | .hlt, _, _ => .hlt
  | .and, opA, opB => .and opA opB
  | .or, opA, opB => .or opA opB
  | .xor, opA, opB => .xor opA opB
  | .shl, opA, opB => .shl opA opB
  | .shr, opA, opB => .shr opA opB
  | .mod, opA, opB => .mod opA opB

/-- Why the decoder refuses three fetched bytes. There is one reason only: R58. -/
inductive DecodeError where
  /-- The first byte is the opcode of no instruction. -/
  | unknownOpcode (byte : Byte)
deriving DecidableEq, Repr

/-- Decode the three fetched bytes (R52, R53): total, refusing by name every byte that selects none of the 20 rows. Register
operands are not checked here (R56, D13). -/
def decode (cfg : Config) (ir opA opB : Byte) : Except DecodeError Instr :=
  match Opcode.ofByte cfg ir with
  | some o => .ok (o.build opA opB)
  | none => .error (.unknownOpcode ir)

/-- The three bytes of a table word: bit 0 of `w` is bit 0 of the first byte, and every bit above `nbits` is 0. -/
def wordBytes (nbits w : Nat) : List Byte :=
  let v := w % 2 ^ nbits
  [wrap v, wrap (v / 256), wrap (v / 65536)]

/-- The instruction the default configuration's decoder reads from a word of spec/opcode_table.json; none where it refuses. -/
def decodeTableWord (nbits w : Nat) : Option Instr :=
  match wordBytes nbits w with
  | [ir, opA, opB] => (decode Config.defaults ir opA opB).toOption
  | _ => none

/-! ### The encoder -/

/-- The row an instruction belongs to. -/
def Instr.opcode : Instr → Opcode
  | .ldi _ _ => .ldi
  | .mul _ _ => .mul
  | .prn _ => .prn
  | .push _ => .push
  | .pop _ => .pop
  | .call _ => .call
  | .ret => .ret
  | .add _ _ => .add
  | .cmp _ _ => .cmp
  | .jmp _ => .jmp
  | .jeq _ => .jeq
  | .jne _ => .jne
  | .not _ => .not
  | .hlt => .hlt
  | .and _ _ => .and
  | .or _ _ => .or
  | .xor _ _ => .xor
  | .shl _ _ => .shl
  | .shr _ _ => .shr
  | .mod _ _ => .mod

/-- The operand bytes of an instruction in memory order: first `a`, then `b` or `imm` (R51, R63). -/
def Instr.operands : Instr → List Byte
  | .ldi a imm => [a, imm]
  | .mul a b => [a, b]
  | .prn a => [a]
  | .push a => [a]
  | .pop a => [a]
  | .call a => [a]
  | .ret => []
  | .add a b => [a, b]
  | .cmp a b => [a, b]
  | .jmp a => [a]
  | .jeq a => [a]
  | .jne a => [a]
  | .and a b => [a, b]
  | .or a b => [a, b]
  | .xor a b => [a, b]
  | .shl a b => [a, b]
  | .shr a b => [a, b]
  | .mod a b => [a, b]
  | .not a => [a]
  | .hlt => []

/-- The bytes of an instruction, ascending addresses: the opcode, then its operands (R34, R51). -/
def encode (cfg : Config) (i : Instr) : List Byte :=
  i.opcode.byte cfg :: i.operands

/-- The length of an instruction is 1 + its operand count, 1 to 3 bytes (R59). -/
def Opcode.length : Opcode → Nat
  | .ret => 1
  | .hlt => 1
  | .prn => 2
  | .push => 2
  | .pop => 2
  | .call => 2
  | .jmp => 2
  | .jeq => 2
  | .jne => 2
  | .not => 2
  | .ldi => 3
  | .mul => 3
  | .add => 3
  | .cmp => 3
  | .and => 3
  | .or => 3
  | .xor => 3
  | .shl => 3
  | .shr => 3
  | .mod => 3

end Sys2Proof
end

