-- ==== Sys2Proof/Machine/State.lean ====
section
/-! DEFINITION. The whole state of one engine instance (10_state.md R10) as plain data, its fault values and refusals, and reset
(R25). -/

namespace Sys2Proof.Machine

/-- The fault values a step can raise (60_exceptions.md R150 rows 1 to 5; R21). A step that raises one takes it: RunState
becomes Faulted of this value and nothing else changes (`takeFault`, R158). So these stand in State, in `RunState.faulted`, and
`step` never answers `Outcome.fault` (log 10: DEDUCED, safe). All are exact: the spec's own faults. -/
inductive Fault where
  /-- Row 1, R151: raised by the three reads of a fetch when an address is above 255. Safe where a machine would skip the read
  (D8). -/
  | outOfBounds (address : Nat)
  /-- Row 2, R152: raised by the first register access of an instruction whose index byte is above 7. Safe. -/
  | invalidRegister (index : Byte)
  /-- Row 3, R153: raised by the ALU's named interface for a name outside its ten operations; no step reaches it (R97).
  Safe. -/
  | unsupportedOperation (name : String)
  /-- Row 4, R154: raised by MOD, and only MOD, when its second operand register holds 0. Safe. -/
  | divisionByZero
  /-- Row 5, R155: raised by decode when the byte fetched at `pc` is none of the 20 opcodes. Safe. -/
  | unknownOpcode (pc : Nat) (byte : Byte)
deriving DecidableEq, Repr

/-- Failures returned to the host by Step, Run and Load and never stored in the state (R150 rows 6 and 7, R156, R157). The
engine state is untouched. -/
inductive Refusal where
  /-- An instruction with no meaning in this model; no arm of `exec` answers it. Safe. -/
  | notModelled (mnemonic : String)
  /-- Row 7, R157: Step or Run on a Halted or Faulted engine, Load outside Ready. Safe: the run has ended. -/
  | invalidState
  /-- Row 6, R156: Load of more than 256 bytes. Safe: nothing is written. -/
  | programTooLarge
deriving DecidableEq, Repr

/-- The four run states (R20; 90_conflicts.md C2). -/
inductive RunState where
  /-- After reset and during program load. -/
  | ready
  /-- Between steps of a run. -/
  | running
  /-- Ended by HLT; terminal. -/
  | halted
  /-- Ended by a fault, with its value; terminal (R21). -/
  | faulted (reason : Fault)
deriving DecidableEq, Repr

/-- The contents of the 256 cells (R23) as (address, byte) pairs: addresses strictly rising, no entry equal to `unwritten`. The
canonical form is `Memory.wf` in Ops.lean. -/
abbrev Memory := List Host.Cell

/-- What an address nothing has written reads as: "zero-initialized" (R23, R25). -/
def unwritten : Byte := 0#8

/-- One engine instance holds exactly the state of R10's table. -/
structure State where
  /-- The general registers R0..R7, index 0 to 7; R7 is the stack pointer SP (R11, R14). -/
  regs : Vector Byte 8
  /-- The address of the next instruction to fetch: a natural number that never wraps (R15, R16; its bound 256 is
  `State.Inv`). -/
  pc : Nat
  /-- The flags byte, `00000LGE` (R17, R18). -/
  fl : Byte
  /-- The one memory (R23). -/
  mem : Memory
  /-- The run state (R20). -/
  runState : RunState
  /-- Every value PRN has emitted, oldest first (R22). -/
  out : List Byte
deriving DecidableEq, Repr

/-- Reset is the construction of an instance from its configuration (R190), with the values of R25. R0..R6 = 0 and FL = 0 are
the spec's decisions D2 and D3 (log 3: DESIGN CHOICE, unsafe, log 4: DESIGN CHOICE, unsafe). -/
def State.resetWith (cfg : Config) : State where
  regs := #v[0#8, 0#8, 0#8, 0#8, 0#8, 0#8, 0#8, cfg.spInit]
  pc := 0
  fl := 0#8
  mem := []
  runState := .ready
  out := []

/-- The engine right after reset, built with the default configuration (log 1: DESIGN CHOICE, unsafe). -/
def State.reset : State := State.resetWith Config.defaults

end Sys2Proof.Machine
end

