-- ==== Sys2Proof/Machine/Flags.lean ====
section
/-! DEFINITION. The flags byte FL: its layout `00000LGE` (10_state.md R18) and the one flag computation, CMP's (41_alu.md R95). -/

namespace Sys2Proof.Machine

/-- FL with only Equal set: bit 0 (R18; the layout is the spec's choice D4, log 5: PRESUMED, unsafe). -/
def flEqual : Byte := 0b00000001#8

/-- FL with only Greater set: bit 1. -/
def flGreater : Byte := 0b00000010#8

/-- FL with only Less set: bit 2. -/
def flLess : Byte := 0b00000100#8

/-- FL.E, the one flag an instruction reads (R17). -/
def State.flagE (s : State) : Bool := s.fl.getLsbD 0

/-- FL.G, read by no instruction (R17). -/
def State.flagG (s : State) : Bool := s.fl.getLsbD 1

/-- FL.L, read by no instruction (R17). -/
def State.flagL (s : State) : Bool := s.fl.getLsbD 2

/-- What CMP writes to the whole of FL (R95): an unsigned comparison (D9, log 6: DESIGN CHOICE, unsafe). -/
def compareFlags (va vb : Byte) : Byte :=
  if va = vb then flEqual
  else if va.toNat > vb.toNat then flGreater
  else flLess

/-- `FL <- v`. -/
def setFl (v : Byte) (s : State) : State := { s with fl := v }

end Sys2Proof.Machine
end

