-- ==== Sys2Proof/Machine/Ops.lean ====
section
/-! DEFINITION. The primitives of 00_scope.md R8 over memory, registers, pc, the output and the stack; taking a fault (R158) and
committing a step (R61); fetch (R52). A primitive that can raise answers `Except Fault`. -/

namespace Sys2Proof.Machine

/-! ### Memory -/

/-- The canonical form: addresses strictly rising, all in 0..255, and no entry equal to what an unlisted address reads as. -/
abbrev Memory.wf (m : Memory) : Prop :=
  m.Pairwise (fun c d => c.1 < d.1) ∧ ∀ c ∈ m, c.1 < 256 ∧ c.2 ≠ unwritten

/-- The byte at an address, with no bounds check. -/
def Memory.byte : Memory → Nat → Byte
  | [], _ => unwritten
  | (k, w) :: m, addr => if addr = k then w else Memory.byte m addr

/-- The entry for one cell: none for the value an unlisted address reads as. -/
def Memory.cell (addr : Nat) (v : Byte) : Memory :=
  if v = unwritten then [] else [(addr, v)]

/-- Store one byte, keeping the canonical form, with no bounds check. -/
def Memory.put : Memory → Nat → Byte → Memory
  | [], addr, v => Memory.cell addr v
  | (k, w) :: m, addr, v =>
    if addr < k then Memory.cell addr v ++ (k, w) :: m
    else if addr = k then Memory.cell addr v ++ m
    else (k, w) :: Memory.put m addr v

/-- Store a sequence of bytes at ascending addresses from `addr`, leaving out any that would fall above 255. -/
def Memory.putBytes : Memory → Nat → List Byte → Memory
  | m, _, [] => m
  | m, addr, v :: vs => Memory.putBytes (if addr < 256 then Memory.put m addr v else m) (addr + 1) vs

/-- `MemRead(addr, 1)` (R31): addresses are natural numbers and are never reduced modulo 256. -/
def memRead (m : Memory) (addr : Nat) : Except Fault Byte :=
  if addr > 255 then .error (.outOfBounds addr) else .ok (m.byte addr)

/-- `MemWrite(addr, 1, v)` (R32): every cell is writable, and no other cell changes. -/
def memWrite (m : Memory) (addr : Nat) (v : Byte) : Except Fault Memory :=
  if addr > 255 then .error (.outOfBounds addr) else .ok (m.put addr v)

/-! ### Registers -/

/-- Read `x[i]` (R12): the whole byte is the index, never masked to three bits. -/
def readReg (i : Byte) (s : State) : Except Fault Byte :=
  if h : i.toNat < 8 then .ok (s.regs[i.toNat]) else .error (.invalidRegister i)

/-- Write `x[i] <- v` (R12, R13): the value is stored modulo 256; no overflow fault and no flag. -/
def writeReg (i : Byte) (v : Nat) (s : State) : Except Fault State :=
  if h : i.toNat < 8 then .ok { s with regs := s.regs.set i.toNat (wrap v) } else .error (.invalidRegister i)

/-- SP is `x[7]` (R14). -/
def State.sp (s : State) : Byte := s.regs[7]

/-- Write SP: the implicit accesses of the stack instructions use the constant index 7 and cannot fault (R152). -/
def State.setSp (s : State) (v : Byte) : State := { s with regs := s.regs.set 7 v }

/-! ### Program counter and output -/

/-- Add the instruction's length to pc, on natural numbers (R59, R16). -/
def advance (n : Nat) (s : State) : State := { s with pc := s.pc + n }

/-- Write pc with a byte taken from a register or the stack, zero-extended (R120). -/
def jumpTo (target : Byte) (s : State) : State := { s with pc := target.toNat }

/-- `Emit(v)`: append a byte to the output sequence (R22). -/
def emit (v : Byte) (s : State) : State := { s with out := s.out ++ [v] }

/-! ### The stack: register-indirect through SP (R110, R44) -/

/-- `SP <- (SP - 1) mod 256`, the first half of a push. -/
def decSp (s : State) : State := s.setSp (s.sp - 1)

/-- `MemWrite(SP, 1, v)`, the second half of a push: store at the new SP. -/
def storeAtSp (v : Byte) (s : State) : Except Fault State := do
  let m ← memWrite s.mem s.sp.toNat v
  .ok { s with mem := m }

/-- `MemRead(SP, 1)`, the first half of a pop. -/
def loadAtSp (s : State) : Except Fault Byte := memRead s.mem s.sp.toNat

/-- `SP <- (SP + 1) mod 256`, the second half of a pop. -/
def incSp (s : State) : State := s.setSp (s.sp + 1)

/-! ### Taking a fault, and the end of a step -/

/-- Fault entry (R158): RunState becomes Faulted of the value "and nothing else": no vector, no saved pc, no cause register, no
mode change. There is no return from a fault to model: "There is no return from a fault and no nesting" (R161). -/
def takeFault (f : Fault) (s : State) : State := { s with runState := .faulted f }

/-- The commit of a step that began in `s` (R61): all writes take effect, or, after a raise, none does and the fault is taken in
the state before the step. -/
def commit (s : State) (r : Except Fault State) : Host.Outcome State Fault Refusal :=
  match r with
  | .ok t => .next t
  | .error f => .next (takeFault f s)

/-- The run states in which a step may begin: Ready and Running (R165, R166). -/
def RunState.canStep : RunState → Bool
  | .ready => true
  | .running => true
  | .halted => false
  | .faulted _ => false

/-- Fetch (R52): three bytes at `pc`, `pc+1`, `pc+2`, whatever the opcode is; the first address out of range raises. -/
def fetch (s : State) : Except Fault (Byte × Byte × Byte) := do
  let ir ← memRead s.mem s.pc
  let opA ← memRead s.mem (s.pc + 1)
  let opB ← memRead s.mem (s.pc + 2)
  .ok (ir, opA, opB)

/-- Store a table word's three bytes where the next fetch reads, nothing else changed. -/
def placeWord (nbits w : Nat) (s : State) : State :=
  { s with mem := s.mem.putBytes s.pc (wordBytes nbits w) }

end Sys2Proof.Machine
end

