-- ==== Sys2Proof/Machine/Operands.lean ====
section
/-! DEFINITION. The operand forms of 30_encoding.md R51 and R56, R57: one register, a register pair, an immediate. Format F0 has
no operand. -/

namespace Sys2Proof.Machine

/-- The register operand of a format F1 instruction that reads it (R56). -/
def oneOperand (a : Byte) (s : State) : Except Fault Byte := readReg a s

/-- The two register operands of a format F2 instruction, read in the order `x[a]` then `x[b]`, both before any write (R96; the
order is the spec's decision D12, log 8: DESIGN CHOICE, unsafe). -/
def twoOperands (a b : Byte) (s : State) : Except Fault (Byte × Byte) := do
  let va ← readReg a s
  let vb ← readReg b s
  .ok (va, vb)

/-- The immediate of format F2I: the raw byte, no extension (R57). -/
def immediate (imm : Byte) : Nat := imm.toNat

end Sys2Proof.Machine
end

