-- ==== Sys2Proof/Machine/Alu.lean ====
section
/-! DEFINITION. The ALU (41_alu.md R85 to R97): the exact result of each operation, the ALU as one component with its named
interface (R97), and the meanings of MUL, ADD, CMP, AND, OR, XOR, SHL, SHR, MOD, NOT. -/

namespace Sys2Proof.Machine

/-! ### Exact results, before the reduction modulo 256 of the register write (R96) -/

/-- ADD: the exact sum (R86). -/
def addValue (va vb : Byte) : Nat := va.toNat + vb.toNat

/-- MUL: the exact 16-bit unsigned product (R87). -/
def mulValue (va vb : Byte) : Nat := va.toNat * vb.toNat

/-- AND: `va & vb` (R88; the document's self-AND is rejected by C1 and D5, log 7: DESIGN CHOICE, unsafe). -/
def andValue (va vb : Byte) : Nat := (va &&& vb).toNat

/-- OR: `va | vb` (R89). -/
def orValue (va vb : Byte) : Nat := (va ||| vb).toNat

/-- XOR: `va ^ vb` (R90). -/
def xorValue (va vb : Byte) : Nat := (va ^^^ vb).toNat

/-- NOT: `255 - va` (R91). -/
def notValue (va : Byte) : Nat := 255 - va.toNat

/-- SHL: `va * 2^vb` with the whole byte as the amount (R92; D10, log 6: DESIGN CHOICE, unsafe). -/
def shlValue (va vb : Byte) : Nat := va.toNat * 2 ^ vb.toNat

/-- SHR: the floor quotient `va div 2^vb`, a logical shift (R93; D10, log 6: DESIGN CHOICE, unsafe). -/
def shrValue (va vb : Byte) : Nat := va.toNat / 2 ^ vb.toNat

/-- MOD: the unsigned remainder; a zero divisor raises before anything is written (R94, R154). -/
def modValue (va vb : Byte) : Except Fault Nat :=
  if vb = 0#8 then .error .divisionByZero else .ok (va.toNat % vb.toNat)

/-! ### The ALU as a component -/

/-- The ten operations of the ALU (R97). -/
inductive AluOp where
  | add | mul | and | or | xor | not | shl | shr | mod | cmp
deriving DecidableEq, Repr

/-- A two-operand operation that writes its destination: read `x[a]`, `x[b]`, compute, write `x[a]` (R85, R96). -/
def aluBinary (f : Byte → Byte → Except Fault Nat) (a b : Byte) (s : State) : Except Fault State := do
  let (va, vb) ← twoOperands a b s
  let r ← f va vb
  writeReg a r s

/-- NOT reads and writes its one operand; the source is unused (R91). -/
def aluNot (a : Byte) (s : State) : Except Fault State := do
  let va ← oneOperand a s
  writeReg a (notValue va) s

/-- CMP writes FL and no register (R95). -/
def aluCmp (a b : Byte) (s : State) : Except Fault State := do
  let (va, vb) ← twoOperands a b s
  .ok (setFl (compareFlags va vb) s)

/-- One ALU operation on destination register `a` and source register `b`: registers or FL change, pc does not. -/
def alu : AluOp → Byte → Byte → State → Except Fault State
  | .add, a, b, s => aluBinary (fun va vb => .ok (addValue va vb)) a b s
  | .mul, a, b, s => aluBinary (fun va vb => .ok (mulValue va vb)) a b s
  | .and, a, b, s => aluBinary (fun va vb => .ok (andValue va vb)) a b s
  | .or, a, b, s => aluBinary (fun va vb => .ok (orValue va vb)) a b s
  | .xor, a, b, s => aluBinary (fun va vb => .ok (xorValue va vb)) a b s
  | .not, a, _, s => aluNot a s
  | .shl, a, b, s => aluBinary (fun va vb => .ok (shlValue va vb)) a b s
  | .shr, a, b, s => aluBinary (fun va vb => .ok (shrValue va vb)) a b s
  | .mod, a, b, s => aluBinary modValue a b s
  | .cmp, a, b, s => aluCmp a b s

/-- The operation an ALU operation name stands for (R97). -/
def AluOp.ofName : String → Option AluOp
  | "ADD" => some .add
  | "MUL" => some .mul
  | "AND" => some .and
  | "OR" => some .or
  | "XOR" => some .xor
  | "NOT" => some .not
  | "SHL" => some .shl
  | "SHR" => some .shr
  | "MOD" => some .mod
  | "CMP" => some .cmp
  | _ => none

/-- The ALU's software interface, which takes an operation name: "Unsupported op name fails with UnsupportedOperation" (R97,
R153). The decoder never comes this way, so no step raises that fault. -/
def aluByName (name : String) (a b : Byte) (s : State) : Except Fault State :=
  match AluOp.ofName name with
  | some op => alu op a b s
  | none => .error (.unsupportedOperation name)

/-! ### The meanings -/

/-- ADD a, b (R86). -/
def execAdd (a b : Byte) (s : State) : Host.Outcome State Fault Refusal :=
  commit s (do let t ← alu .add a b s; .ok (advance 3 t))

/-- MUL a, b (R87). -/
def execMul (a b : Byte) (s : State) : Host.Outcome State Fault Refusal :=
  commit s (do let t ← alu .mul a b s; .ok (advance 3 t))

/-- AND a, b (R88). -/
def execAnd (a b : Byte) (s : State) : Host.Outcome State Fault Refusal :=
  commit s (do let t ← alu .and a b s; .ok (advance 3 t))

/-- OR a, b (R89). -/
def execOr (a b : Byte) (s : State) : Host.Outcome State Fault Refusal :=
  commit s (do let t ← alu .or a b s; .ok (advance 3 t))

/-- XOR a, b (R90). -/
def execXor (a b : Byte) (s : State) : Host.Outcome State Fault Refusal :=
  commit s (do let t ← alu .xor a b s; .ok (advance 3 t))

/-- SHL a, b (R92). -/
def execShl (a b : Byte) (s : State) : Host.Outcome State Fault Refusal :=
  commit s (do let t ← alu .shl a b s; .ok (advance 3 t))

/-- SHR a, b (R93). -/
def execShr (a b : Byte) (s : State) : Host.Outcome State Fault Refusal :=
  commit s (do let t ← alu .shr a b s; .ok (advance 3 t))

/-- MOD a, b (R94). -/
def execMod (a b : Byte) (s : State) : Host.Outcome State Fault Refusal :=
  commit s (do let t ← alu .mod a b s; .ok (advance 3 t))

/-- CMP a, b (R95). -/
def execCmp (a b : Byte) (s : State) : Host.Outcome State Fault Refusal :=
  commit s (do let t ← alu .cmp a b s; .ok (advance 3 t))

/-- NOT a (R91): two bytes long; the ALU's source operand is unused. -/
def execNot (a : Byte) (s : State) : Host.Outcome State Fault Refusal :=
  commit s (do let t ← alu .not a a s; .ok (advance 2 t))

end Sys2Proof.Machine
end

