-- ==== Sys2Proof/Machine/Control.lean ====
section
/-! DEFINITION. JMP, JEQ, JNE, CALL, RET (43_control.md R120 to R125). -/

namespace Sys2Proof.Machine

/-- The taken path of a jump: pc from a register, "set, not added" (R120). -/
def jumpVia (a : Byte) (s : State) : Except Fault State := do
  let target ← oneOperand a s
  .ok (jumpTo target s)

/-- JMP a (R121). -/
def execJmp (a : Byte) (s : State) : Host.Outcome State Fault Refusal :=
  commit s (jumpVia a s)

/-- JEQ a (R122): the operand is accessed, and so checked, only when the jump is taken (D13, log 8: DESIGN CHOICE, unsafe). -/
def execJeq (a : Byte) (s : State) : Host.Outcome State Fault Refusal :=
  commit s (if s.flagE then jumpVia a s else .ok (advance 2 s))

/-- JNE a (R123): the operand is accessed, and so checked, only when the jump is taken (D13, log 8: DESIGN CHOICE, unsafe). -/
def execJne (a : Byte) (s : State) : Host.Outcome State Fault Refusal :=
  commit s (if s.flagE then .ok (advance 2 s) else jumpVia a s)

/-- CALL a (R124): push the address of the byte after the CALL, then read the target after the push (D11, log 9: DESIGN
CHOICE, unsafe). A CALL that a step runs has `pc <= 253`, so the byte holds `pc + 2` exactly (log 20: DEDUCED, safe). -/
def execCall (a : Byte) (s : State) : Host.Outcome State Fault Refusal :=
  commit s (do
    let t ← storeAtSp (wrap (s.pc + 2)) (decSp s)
    jumpVia a t)

/-- RET (R125): pc from the byte at SP, then increment SP. It names no register and cannot fault. -/
def execRet (s : State) : Host.Outcome State Fault Refusal :=
  commit s (do
    let target ← loadAtSp s
    .ok (incSp (jumpTo target s)))

end Sys2Proof.Machine
end

