-- ==== Sys2Proof/Machine/LoadImmediate.lean ====
section
/-! DEFINITION. LDI, the one data-movement instruction (40_ldi.md R80). -/

namespace Sys2Proof.Machine

/-- LDI a, imm (R80): the old value of `x[a]` is not read. -/
def execLdi (a imm : Byte) (s : State) : Host.Outcome State Fault Refusal :=
  commit s (do let t ← writeReg a (immediate imm) s; .ok (advance 3 t))

end Sys2Proof.Machine
end

