-- ==== Sys2Proof/Machine/Stack.lean ====
section
/-! DEFINITION. PUSH and POP, the only loads and stores (42_stack.md R110 to R112). Their micro-steps are sequential: a later
one sees the earlier one's write (D11, log 9: DESIGN CHOICE, unsafe). -/

namespace Sys2Proof.Machine

/-- PUSH a (R111): decrement SP, read `x[a]` after the decrement, store at the new SP. -/
def execPush (a : Byte) (s : State) : Host.Outcome State Fault Refusal :=
  commit s (do
    let t := decSp s
    let v ← oneOperand a t
    let u ← storeAtSp v t
    .ok (advance 2 u))

/-- POP a (R112): read at SP, write `x[a]`, then increment the SP that write left. -/
def execPop (a : Byte) (s : State) : Host.Outcome State Fault Refusal :=
  commit s (do
    let v ← loadAtSp s
    let t ← writeReg a v.toNat s
    .ok (advance 2 (incSp t)))

end Sys2Proof.Machine
end

