-- ==== Sys2Proof/Machine/System.lean ====
section
/-! DEFINITION. PRN and HLT, the whole system group (44_system.md R135 to R137). -/

namespace Sys2Proof.Machine

/-- PRN a (R135): emit the register's value; the output never blocks and never fails (D29, log 12: DESIGN CHOICE, unsafe). -/
def execPrn (a : Byte) (s : State) : Host.Outcome State Fault Refusal :=
  commit s (do let v ← oneOperand a s; .ok (advance 2 (emit v s)))

/-- HLT (R136): the run ends; pc keeps the address of the HLT (D14, log 11: DESIGN CHOICE, unsafe). -/
def execHlt (s : State) : Host.Outcome State Fault Refusal :=
  commit s (.ok { s with runState := .halted })

end Sys2Proof.Machine
end

