-- ==== Sys2Proof/Machine/Cycle.lean ====
section
/-! DEFINITION. The fetch-decode-execute cycle (30_encoding.md R60) and the Step operation (60_exceptions.md R166), for any
configuration. -/

namespace Sys2Proof.Machine

/-- One cycle of a Running engine (R60): fetch, decode, execute; a fetch fault comes before a decode fault (R160). -/
def cycle (cfg : Config) (s : State) : Host.Outcome State Fault Refusal :=
  match fetch s with
  | .error f => .next (takeFault f s)
  | .ok (ir, opA, opB) =>
    match decode cfg ir opA opB with
    | .error (.unknownOpcode byte) => .next (takeFault (.unknownOpcode s.pc byte) s)
    | .ok i => exec i s

/-- `RunState <- Running`, from Ready or Running (R166). -/
def beginStep (s : State) : State := { s with runState := .running }

/-- The Step operation of an engine built with `cfg` (R166): refused in a terminal state, where nothing changes (log 10:
DEDUCED, safe). The configuration is an argument (R5, log 17: DESIGN CHOICE, safe). -/
def stepWith (cfg : Config) (s : State) : Host.Outcome State Fault Refusal :=
  if s.runState.canStep then cycle cfg (beginStep s) else .refused .invalidState

end Sys2Proof.Machine
end

