-- ==== Sys2Proof/Machine/Step.lean ====
section
/-! DEFINITION. The machine's step: the Step operation of an engine built with the default configuration; and the placing of one
table word where that step fetches. -/

namespace Sys2Proof.Machine

/-- One Step (R166) of an engine built with `Config.defaults`. -/
def step (s : State) : Host.Outcome State Fault Refusal := stepWith Config.defaults s

/-- `s` with a table word stored at pc, pc+1, pc+2, where the next fetch reads (pc at most 253; log 13: DEDUCED, safe). -/
def State.withFetchWord (s : State) (nbits w : Nat) : State := placeWord nbits w s

end Sys2Proof.Machine
end

