-- ==== Sys2Proof/Machine/HostOps.lean ====
section
/-! DEFINITION. The other host operations of 60_exceptions.md R165 to R170: Load, Run, the text of the output and the report of a
fault. Step is `stepWith`, Reset is `State.resetWith`. -/

namespace Sys2Proof.Machine

/-- Load (R168): only in Ready, at most 256 bytes, written sequentially from address 0; no other state changes (D16, D17, log
15: DESIGN CHOICE, safe). Where both failures apply, InvalidState is the one returned (the order of R168's pseudocode). -/
def load (bytes : List Byte) (s : State) : Host.Outcome State Fault Refusal :=
  if s.runState = .ready then
    if bytes.length > 256 then .refused .programTooLarge
    else .next { s with mem := s.mem.putBytes 0 bytes }
  else .refused .invalidState

/-- The state after at most `n` steps, stopping at a terminal state (the loop of R167 under a host's step bound). -/
def runLoop (cfg : Config) : Nat → State → State
  | 0, s => s
  | n + 1, s =>
    match stepWith cfg s with
    | .next t => runLoop cfg n t
    | .fault _ => s
    | .refused _ => s

/-- Run under a host's bound of `n` steps (R167): refused in a terminal state, else it steps from Ready or Running (D18, log
19: DESIGN CHOICE, safe). A run the bound cuts short is left Running. -/
def runFor (cfg : Config) (n : Nat) (s : State) : Host.Outcome State Fault Refusal :=
  if s.runState.canStep then .next (runLoop cfg n s) else .refused .invalidState

/-- Run returns with final state `t` (R167): some number of steps reaches a terminal state. A run for which no such `t` exists
never returns. -/
def RunReturns (cfg : Config) (s t : State) : Prop :=
  s.runState.canStep = true ∧ ∃ n, runLoop cfg n s = t ∧ t.runState.canStep = false

/-- One decimal digit. -/
def digit (n : Nat) : Char := Char.ofNat (48 + n % 10)

/-- The text a host shows for an emitted value: the decimal numeral without leading zeros (R22). The line end is the host's
(U21). -/
def decimalText (v : Byte) : List Char :=
  let n := v.toNat
  if n < 10 then [digit n]
  else if n < 100 then [digit (n / 10), digit n]
  else [digit (n / 100), digit (n / 10), digit n]

/-- The lines of output, oldest first (R169). -/
def outputLines (s : State) : List (List Char) := s.out.map decimalText

/-- What the host can report of a Faulted engine: "kind + PC + offending bytes" (R158, R170), the bytes being those of
Mem[pc..pc+2] that exist. -/
def faultReport (s : State) : Option (Fault × Nat × List Byte) :=
  match s.runState with
  | .faulted f => some (f, s.pc, ([s.pc, s.pc + 1, s.pc + 2].filter (fun a => decide (a < 256))).map s.mem.byte)
  | .ready => none
  | .running => none
  | .halted => none

end Sys2Proof.Machine
end

