-- ==== Sys2Proof/Safety.lean ====
section
/-! DEFINITION. What counts as a good state and a safe run, in the words the statements use: the invariant of reachable states,
where a run may end (70_reset_and_hazards.md R199), a run that does not fault, and how an instruction stands in memory. -/

namespace Sys2Proof.Machine

/-- What every step and every Load keep: memory in canonical form with every listed cell inside 0..255 (R30); `pc` in 0..256
(R16); FL one of 00, 01, 02, 04 (R18, R19). -/
def State.Inv (s : State) : Prop :=
  s.mem.wf ∧ s.pc ≤ 256 ∧ s.fl ∈ [0#8, flEqual, flGreater, flLess]

/-- The bytes at `pc` can be fetched and decode to `i`. -/
def State.Decodes (cfg : Config) (s : State) (i : Instr) : Prop :=
  s.pc ≤ 253 ∧ decode cfg (s.mem.byte s.pc) (s.mem.byte (s.pc + 1)) (s.mem.byte (s.pc + 2)) = .ok i

/-- What a terminal state lets the host read off (R158, R199): pc still addresses the HLT or the faulting instruction, and the
recorded fault is the one that the unchanged state explains. -/
def State.EndAccounted (cfg : Config) (s : State) : Prop :=
  match s.runState with
  | .ready => True
  | .running => True
  | .halted => s.Decodes cfg .hlt
  | .faulted (.outOfBounds address) => 254 ≤ s.pc ∧ address = 256
  | .faulted (.unknownOpcode pc byte) =>
    pc = s.pc ∧ s.pc ≤ 253 ∧ byte = s.mem.byte s.pc ∧ Opcode.ofByte cfg byte = none
  | .faulted (.invalidRegister index) => 8 ≤ index.toNat ∧ ∃ i, s.Decodes cfg i ∧ index ∈ i.registers
  | .faulted .divisionByZero =>
    ∃ a b, s.Decodes cfg (.mod a b) ∧ a.toNat < 8 ∧ ∃ hb : b.toNat < 8, s.regs[b.toNat] = 0#8
  | .faulted (.unsupportedOperation _) => False

/-- A run of at most `n` steps from `s` that has not faulted. -/
def SafeFor (cfg : Config) (n : Nat) (s : State) : Prop :=
  ∀ f, (runLoop cfg n s).runState ≠ .faulted f

/-- The bytes `bs` are the encoding of `i`, and decode to it whatever bytes follow them (R34, R51): the fetched bytes that are
not part of the instruction are ignored. -/
def EncodedAs (cfg : Config) (i : Instr) (bs : List Byte) : Prop :=
  encode cfg i = bs ∧
  ∀ (rest tail : List Byte) (ir opA opB : Byte), bs ++ rest = ir :: opA :: opB :: tail → decode cfg ir opA opB = .ok i

/-- An instruction whose opcode byte stands at 254 or 255 is never executed: the step faults with OutOfBounds(256) and changes
nothing else (R52, R151, R193). -/
def NeverRunsAtTop (cfg : Config) (opcode : Byte) : Prop :=
  ∀ s : State, s.runState.canStep = true → s.mem.byte s.pc = opcode → s.pc = 254 ∨ s.pc = 255 →
    stepWith cfg s = .next { s with runState := .faulted (.outOfBounds 256) }

/-- An instruction that writes pc with a byte when it completes, given FL.E (R59): JMP, CALL, RET, a taken JEQ or JNE. -/
def redirects : Instr → Bool → Bool
  | .jmp _, _ => true
  | .call _, _ => true
  | .ret, _ => true
  | .jeq _, e => e
  | .jne _, e => !e
  | .ldi _ _, _ => false
  | .mul _ _, _ => false
  | .prn _, _ => false
  | .push _, _ => false
  | .pop _, _ => false
  | .add _ _, _ => false
  | .cmp _ _, _ => false
  | .and _ _, _ => false
  | .or _ _, _ => false
  | .xor _ _, _ => false
  | .shl _ _, _ => false
  | .shr _ _, _ => false
  | .mod _ _, _ => false
  | .not _, _ => false
  | .hlt, _ => false

/-- The registers an instruction writes when it completes (the table of R14). -/
def written : Instr → List Nat
  | .ldi a _ => [a.toNat]
  | .mul a _ => [a.toNat]
  | .add a _ => [a.toNat]
  | .and a _ => [a.toNat]
  | .or a _ => [a.toNat]
  | .xor a _ => [a.toNat]
  | .shl a _ => [a.toNat]
  | .shr a _ => [a.toNat]
  | .mod a _ => [a.toNat]
  | .not a => [a.toNat]
  | .pop a => [a.toNat, 7]
  | .push _ => [7]
  | .call _ => [7]
  | .ret => [7]
  | .cmp _ _ => []
  | .jmp _ => []
  | .jeq _ => []
  | .jne _ => []
  | .prn _ => []
  | .hlt => []

end Sys2Proof.Machine
end

