-- ==== Sys2Proof/Certificates/Slice0/Obligations.lean ====
section
/-! DEFINITION. The statements for the provers. A statement over every configuration covers `step`, which is `stepWith` of the
default one. Register results are written out on the register file, so each result statement is also a frame: what is not named
is unchanged. -/

open Sys2Proof Sys2Proof.Machine

/-- R80. LDI a, imm. That it never runs at 254 or 255 is decision D8 (log 14). -/
def Obligations.LoadImmediateWritesRegister : Prop :=
  ∀ (cfg : Config) (a imm : Byte) (s : State),
    EncodedAs cfg (.ldi a imm) [0x82#8, a, imm] ∧ NeverRunsAtTop cfg 0x82#8 ∧
    (∀ ha : a.toNat < 8,
      exec (.ldi a imm) s = .next { s with regs := s.regs.set a.toNat imm, pc := s.pc + 3 }) ∧
    (8 ≤ a.toNat → exec (.ldi a imm) s = .next { s with runState := .faulted (.invalidRegister a) }) ∧
    (s.runState.canStep = true → s.Decodes cfg (.ldi a imm) → s.pc = 253 → a.toNat < 8 →
      ∃ t, stepWith cfg s = .next t ∧ t.pc = 256 ∧
        stepWith cfg t = .next { t with runState := .faulted (.outOfBounds 256) })

/-- R86, whole. ADD a, b. The fetch fault of the common list, the same for every
instruction, is stated by `OutOfBoundsOnlyFromFetch`. -/
def Obligations.AddWritesSumModulo256 : Prop :=
  ∀ (cfg : Config) (a b : Byte) (s : State),
    EncodedAs cfg (.add a b) [0xA0#8, a, b] ∧
    (∀ (ha : a.toNat < 8) (hb : b.toNat < 8),
      exec (.add a b) s =
        .next { s with regs := s.regs.set a.toNat (wrap (s.regs[a.toNat].toNat + s.regs[b.toNat].toNat)), pc := s.pc + 3 }) ∧
    (8 ≤ a.toNat → b.toNat < 8 →
      exec (.add a b) s = .next { s with runState := .faulted (.invalidRegister a) }) ∧
    (a.toNat < 8 → 8 ≤ b.toNat →
      exec (.add a b) s = .next { s with runState := .faulted (.invalidRegister b) })

/-- R87, whole. MUL a, b. The fetch fault of the common list, the same for every
instruction, is stated by `OutOfBoundsOnlyFromFetch`. -/
def Obligations.MulWritesLowByteOfProduct : Prop :=
  ∀ (cfg : Config) (a b : Byte) (s : State),
    EncodedAs cfg (.mul a b) [0xA2#8, a, b] ∧
    (∀ (ha : a.toNat < 8) (hb : b.toNat < 8),
      exec (.mul a b) s =
        .next { s with regs := s.regs.set a.toNat (wrap (s.regs[a.toNat].toNat * s.regs[b.toNat].toNat)), pc := s.pc + 3 }) ∧
    (8 ≤ a.toNat → b.toNat < 8 →
      exec (.mul a b) s = .next { s with runState := .faulted (.invalidRegister a) }) ∧
    (a.toNat < 8 → 8 ≤ b.toNat →
      exec (.mul a b) s = .next { s with runState := .faulted (.invalidRegister b) })

/-- R88. AND a, b: the bitwise and of both operands is the choice of decision D5 and C1 (log 7), and its opcode byte is
whatever the configuration says. That it never runs at 254 or 255 is decision D8 (log 14). -/
def Obligations.AndWritesConjunctionOfBoth : Prop :=
  ∀ (cfg : Config) (a b : Byte) (s : State),
    EncodedAs cfg (.and a b) [cfg.opcAnd, a, b] ∧ NeverRunsAtTop cfg (cfg.opcAnd) ∧
    (∀ (ha : a.toNat < 8) (hb : b.toNat < 8),
      exec (.and a b) s =
        .next { s with regs := s.regs.set a.toNat (s.regs[a.toNat] &&& s.regs[b.toNat]), pc := s.pc + 3 }) ∧
    (8 ≤ a.toNat → b.toNat < 8 →
      exec (.and a b) s = .next { s with runState := .faulted (.invalidRegister a) }) ∧
    (a.toNat < 8 → 8 ≤ b.toNat →
      exec (.and a b) s = .next { s with runState := .faulted (.invalidRegister b) })

/-- R89, whole; the opcode byte is the parameter OPC_OR. OR a, b. The fetch fault of the common list, the same for every
instruction, is stated by `OutOfBoundsOnlyFromFetch`. -/
def Obligations.OrWritesDisjunction : Prop :=
  ∀ (cfg : Config) (a b : Byte) (s : State),
    EncodedAs cfg (.or a b) [cfg.opcOr, a, b] ∧
    (∀ (ha : a.toNat < 8) (hb : b.toNat < 8),
      exec (.or a b) s =
        .next { s with regs := s.regs.set a.toNat (s.regs[a.toNat] ||| s.regs[b.toNat]), pc := s.pc + 3 }) ∧
    (8 ≤ a.toNat → b.toNat < 8 →
      exec (.or a b) s = .next { s with runState := .faulted (.invalidRegister a) }) ∧
    (a.toNat < 8 → 8 ≤ b.toNat →
      exec (.or a b) s = .next { s with runState := .faulted (.invalidRegister b) })

/-- R90, whole; the opcode byte is the parameter OPC_XOR. XOR a, b. The fetch fault of the common list, the same for every
instruction, is stated by `OutOfBoundsOnlyFromFetch`. -/
def Obligations.XorWritesExclusiveOr : Prop :=
  ∀ (cfg : Config) (a b : Byte) (s : State),
    EncodedAs cfg (.xor a b) [cfg.opcXor, a, b] ∧
    (∀ (ha : a.toNat < 8) (hb : b.toNat < 8),
      exec (.xor a b) s =
        .next { s with regs := s.regs.set a.toNat (s.regs[a.toNat] ^^^ s.regs[b.toNat]), pc := s.pc + 3 }) ∧
    (8 ≤ a.toNat → b.toNat < 8 →
      exec (.xor a b) s = .next { s with runState := .faulted (.invalidRegister a) }) ∧
    (a.toNat < 8 → 8 ≤ b.toNat →
      exec (.xor a b) s = .next { s with runState := .faulted (.invalidRegister b) })

/-- R91. NOT a: two bytes long, the byte after it is not checked. That it never runs at 254 or 255 is decision D8 (log 14). -/
def Obligations.NotWritesComplement : Prop :=
  ∀ (cfg : Config) (a : Byte) (s : State),
    EncodedAs cfg (.not a) [0x69#8, a] ∧ NeverRunsAtTop cfg 0x69#8 ∧
    (∀ ha : a.toNat < 8,
      exec (.not a) s =
        .next { s with regs := s.regs.set a.toNat (wrap (255 - s.regs[a.toNat].toNat)), pc := s.pc + 2 }) ∧
    (8 ≤ a.toNat → exec (.not a) s = .next { s with runState := .faulted (.invalidRegister a) })

/-- R92. SHL a, b: the amount is the whole byte, not reduced, by decision D10 (log 6).
That it never runs at 254 or 255 is decision D8 (log 14). -/
def Obligations.ShiftLeftUsesWholeAmount : Prop :=
  ∀ (cfg : Config) (a b : Byte) (s : State),
    EncodedAs cfg (.shl a b) [cfg.opcShl, a, b] ∧ NeverRunsAtTop cfg (cfg.opcShl) ∧
    (∀ (ha : a.toNat < 8) (hb : b.toNat < 8),
      exec (.shl a b) s =
        .next { s with regs := s.regs.set a.toNat (wrap (s.regs[a.toNat].toNat * 2 ^ s.regs[b.toNat].toNat)), pc := s.pc + 3 }) ∧
    (∀ (ha : a.toNat < 8) (hb : b.toNat < 8), 8 ≤ s.regs[b.toNat].toNat →
      exec (.shl a b) s = .next { s with regs := s.regs.set a.toNat 0#8, pc := s.pc + 3 }) ∧
    (8 ≤ a.toNat → b.toNat < 8 →
      exec (.shl a b) s = .next { s with runState := .faulted (.invalidRegister a) }) ∧
    (a.toNat < 8 → 8 ≤ b.toNat →
      exec (.shl a b) s = .next { s with runState := .faulted (.invalidRegister b) })

/-- R93. SHR a, b: a logical shift by the whole byte, by decision D10 (log 6).
That it never runs at 254 or 255 is decision D8 (log 14). -/
def Obligations.ShiftRightIsLogical : Prop :=
  ∀ (cfg : Config) (a b : Byte) (s : State),
    EncodedAs cfg (.shr a b) [cfg.opcShr, a, b] ∧ NeverRunsAtTop cfg (cfg.opcShr) ∧
    (∀ (ha : a.toNat < 8) (hb : b.toNat < 8),
      exec (.shr a b) s =
        .next { s with regs := s.regs.set a.toNat (wrap (s.regs[a.toNat].toNat / 2 ^ s.regs[b.toNat].toNat)), pc := s.pc + 3 }) ∧
    (∀ (ha : a.toNat < 8) (hb : b.toNat < 8), 8 ≤ s.regs[b.toNat].toNat →
      exec (.shr a b) s = .next { s with regs := s.regs.set a.toNat 0#8, pc := s.pc + 3 }) ∧
    (8 ≤ a.toNat → b.toNat < 8 →
      exec (.shr a b) s = .next { s with runState := .faulted (.invalidRegister a) }) ∧
    (a.toNat < 8 → 8 ≤ b.toNat →
      exec (.shr a b) s = .next { s with runState := .faulted (.invalidRegister b) })

/-- R94, whole; the opcode byte is the parameter OPC_MOD. MOD a, b. The fetch fault of the common list, the same for every
instruction, is stated by `OutOfBoundsOnlyFromFetch`. -/
def Obligations.ModuloWritesRemainderOrFaults : Prop :=
  ∀ (cfg : Config) (a b : Byte) (s : State),
    EncodedAs cfg (.mod a b) [cfg.opcMod, a, b] ∧
    (∀ (ha : a.toNat < 8) (hb : b.toNat < 8), s.regs[b.toNat] ≠ 0#8 →
      exec (.mod a b) s =
        .next { s with regs := s.regs.set a.toNat (wrap (s.regs[a.toNat].toNat % s.regs[b.toNat].toNat)), pc := s.pc + 3 }) ∧
    (∀ hb : b.toNat < 8, a.toNat < 8 → s.regs[b.toNat] = 0#8 →
      exec (.mod a b) s = .next { s with runState := .faulted .divisionByZero }) ∧
    (8 ≤ a.toNat → b.toNat < 8 →
      exec (.mod a b) s = .next { s with runState := .faulted (.invalidRegister a) }) ∧
    (a.toNat < 8 → 8 ≤ b.toNat →
      exec (.mod a b) s = .next { s with runState := .faulted (.invalidRegister b) })

/-- R95. CMP a, b: the comparison is unsigned by decision D9 (log 6) and the bit positions are those of R18, decision D4 (log 5).
That it never runs at 254 or 255 is decision D8 (log 14). -/
def Obligations.CompareWritesOnlyFlags : Prop :=
  ∀ (cfg : Config) (a b : Byte) (s : State),
    EncodedAs cfg (.cmp a b) [0xA7#8, a, b] ∧ NeverRunsAtTop cfg 0xA7#8 ∧
    (∀ (ha : a.toNat < 8) (hb : b.toNat < 8),
      (s.regs[a.toNat].toNat = s.regs[b.toNat].toNat → exec (.cmp a b) s = .next { s with fl := 0x01#8, pc := s.pc + 3 }) ∧
      (s.regs[b.toNat].toNat < s.regs[a.toNat].toNat → exec (.cmp a b) s = .next { s with fl := 0x02#8, pc := s.pc + 3 }) ∧
      (s.regs[a.toNat].toNat < s.regs[b.toNat].toNat → exec (.cmp a b) s = .next { s with fl := 0x04#8, pc := s.pc + 3 })) ∧
    (8 ≤ a.toNat → b.toNat < 8 →
      exec (.cmp a b) s = .next { s with runState := .faulted (.invalidRegister a) }) ∧
    (a.toNat < 8 → 8 ≤ b.toNat →
      exec (.cmp a b) s = .next { s with runState := .faulted (.invalidRegister b) })

/-- R111. PUSH a: the register is read after the decrement, which matters for a = 7 (decision D11, log 9).
That it never runs at 254 or 255 is decision D8 (log 14). -/
def Obligations.PushStoresBelowStackPointer : Prop :=
  ∀ (cfg : Config) (a : Byte) (s : State),
    EncodedAs cfg (.push a) [0x45#8, a] ∧ NeverRunsAtTop cfg 0x45#8 ∧
    (∀ ha : a.toNat < 8,
      let sp := s.regs[7] - 1#8
      let v := (s.regs.set 7 sp)[a.toNat]
      exec (.push a) s =
        .next { s with regs := s.regs.set 7 sp, mem := s.mem.put sp.toNat v, pc := s.pc + 2 } ∧
      (a.toNat = 7 → v = sp) ∧ (a.toNat ≠ 7 → v = s.regs[a.toNat]) ∧
      (s.mem.wf → ∀ x, (s.mem.put sp.toNat v).byte x = if x = sp.toNat then v else s.mem.byte x)) ∧
    (8 ≤ a.toNat → exec (.push a) s = .next { s with runState := .faulted (.invalidRegister a) })

/-- R112. POP a: SP is incremented after x[a] is written, which matters for a = 7 (decision D11, log 9).
That it never runs at 254 or 255 is decision D8 (log 14). -/
def Obligations.PopLoadsThenIncrements : Prop :=
  ∀ (cfg : Config) (a : Byte) (s : State),
    EncodedAs cfg (.pop a) [0x46#8, a] ∧ NeverRunsAtTop cfg 0x46#8 ∧
    (∀ ha : a.toNat < 8,
      let v := s.mem.byte s.regs[7].toNat
      (a.toNat ≠ 7 →
        exec (.pop a) s =
          .next { s with regs := (s.regs.set a.toNat v).set 7 (s.regs[7] + 1#8), pc := s.pc + 2 }) ∧
      (a.toNat = 7 → exec (.pop a) s = .next { s with regs := s.regs.set 7 (v + 1#8), pc := s.pc + 2 })) ∧
    (8 ≤ a.toNat → exec (.pop a) s = .next { s with runState := .faulted (.invalidRegister a) })

/-- R121. JMP a. That it never runs at 254 or 255 is decision D8 (log 14). -/
def Obligations.JumpSetsProgramCounter : Prop :=
  ∀ (cfg : Config) (a : Byte) (s : State),
    EncodedAs cfg (.jmp a) [0x54#8, a] ∧ NeverRunsAtTop cfg 0x54#8 ∧
    (∀ ha : a.toNat < 8, exec (.jmp a) s = .next { s with pc := s.regs[a.toNat].toNat }) ∧
    (8 ≤ a.toNat → exec (.jmp a) s = .next { s with runState := .faulted (.invalidRegister a) }) ∧
    (∀ ha : a.toNat < 8, s.runState.canStep = true → s.Decodes cfg (.jmp a) → s.regs[a.toNat].toNat = s.pc →
      stepWith cfg s = .next { s with runState := .running })

/-- R122. JEQ a: the operand is not checked on the path not taken, by decision D13 (log 8).
That it never runs at 254 or 255 is decision D8 (log 14). -/
def Obligations.JumpIfEqualReadsOnlyEqual : Prop :=
  ∀ (cfg : Config) (a : Byte) (s : State),
    EncodedAs cfg (.jeq a) [0x55#8, a] ∧ NeverRunsAtTop cfg 0x55#8 ∧
    (∀ ha : a.toNat < 8, s.flagE = true → exec (.jeq a) s = .next { s with pc := s.regs[a.toNat].toNat }) ∧
    (8 ≤ a.toNat → s.flagE = true →
      exec (.jeq a) s = .next { s with runState := .faulted (.invalidRegister a) }) ∧
    (s.flagE = false → exec (.jeq a) s = .next { s with pc := s.pc + 2 })

/-- R123. JNE a: the operand is not checked on the path not taken, by decision D13 (log 8).
That it never runs at 254 or 255 is decision D8 (log 14). -/
def Obligations.JumpIfNotEqualReadsOnlyEqual : Prop :=
  ∀ (cfg : Config) (a : Byte) (s : State),
    EncodedAs cfg (.jne a) [0x56#8, a] ∧ NeverRunsAtTop cfg 0x56#8 ∧
    (∀ ha : a.toNat < 8, s.flagE = false → exec (.jne a) s = .next { s with pc := s.regs[a.toNat].toNat }) ∧
    (8 ≤ a.toNat → s.flagE = false →
      exec (.jne a) s = .next { s with runState := .faulted (.invalidRegister a) }) ∧
    (s.flagE = true → exec (.jne a) s = .next { s with pc := s.pc + 2 })

/-- R124. CALL a: the target is read after the push, which matters for a = 7 (decision D11, log 9).
That it never runs at 254 or 255 is decision D8 (log 14). The equation of exec covers every pc; the byte (pc + 2) mod 256 that it
names at a pc above 253, where no step runs a CALL, is the model's choice (log 20). -/
def Obligations.CallPushesReturnAddress : Prop :=
  ∀ (cfg : Config) (a : Byte) (s : State),
    EncodedAs cfg (.call a) [0x50#8, a] ∧ NeverRunsAtTop cfg 0x50#8 ∧
    (∀ ha : a.toNat < 8,
      let sp := s.regs[7] - 1#8
      let target := (s.regs.set 7 sp)[a.toNat]
      exec (.call a) s =
        .next { s with regs := s.regs.set 7 sp, mem := s.mem.put sp.toNat (wrap (s.pc + 2)), pc := target.toNat } ∧
      (a.toNat = 7 → target = sp) ∧ (a.toNat ≠ 7 → target = s.regs[a.toNat]) ∧
      (s.pc ≤ 253 → (wrap (s.pc + 2)).toNat = s.pc + 2) ∧
      (s.mem.wf → ∀ x,
        (s.mem.put sp.toNat (wrap (s.pc + 2))).byte x = if x = sp.toNat then wrap (s.pc + 2) else s.mem.byte x)) ∧
    (8 ≤ a.toNat → exec (.call a) s = .next { s with runState := .faulted (.invalidRegister a) })

/-- R125. RET. That it never runs at 254 or 255 is decision D8 (log 14). -/
def Obligations.ReturnPopsProgramCounter : Prop :=
  ∀ (cfg : Config) (s : State),
    EncodedAs cfg .ret [0x11#8] ∧ NeverRunsAtTop cfg 0x11#8 ∧
    exec .ret s =
      .next { s with pc := (s.mem.byte s.regs[7].toNat).toNat, regs := s.regs.set 7 (s.regs[7] + 1#8) }

/-- R135. PRN a: that output never blocks and never fails is decision D29 (log 12).
That it never runs at 254 or 255 is decision D8 (log 14). -/
def Obligations.PrintEmitsRegister : Prop :=
  ∀ (cfg : Config) (a : Byte) (s : State),
    EncodedAs cfg (.prn a) [0x47#8, a] ∧ NeverRunsAtTop cfg 0x47#8 ∧
    (∀ ha : a.toNat < 8, exec (.prn a) s = .next { s with out := s.out ++ [s.regs[a.toNat]], pc := s.pc + 2 }) ∧
    (8 ≤ a.toNat → exec (.prn a) s = .next { s with runState := .faulted (.invalidRegister a) })

/-- R136. HLT: pc is unchanged by decision D14 (log 11).
That it never runs at 254 or 255 is decision D8 (log 14). -/
def Obligations.HaltEndsTheRun : Prop :=
  ∀ (cfg : Config) (s : State),
    EncodedAs cfg .hlt [0x01#8] ∧ NeverRunsAtTop cfg 0x01#8 ∧
    exec .hlt s = .next { s with runState := .halted } ∧
    (s.runState.canStep = true → s.Decodes cfg .hlt →
      ∃ t, stepWith cfg s = .next t ∧ t.runState = .halted ∧ stepWith cfg t = .refused .invalidState)

/-- R60, R166. A step of a Ready or Running engine is exec of the instruction decoded at pc, in that state made Running; no
instruction is shut out. `step` is the case of the default configuration. -/
def Obligations.StepRunsDecodedInstruction : Prop :=
  (∀ (cfg : Config) (s : State) (i : Instr), s.runState.canStep = true → s.Decodes cfg i →
      stepWith cfg s = exec i { s with runState := .running }) ∧
    (∀ (s : State) (i : Instr), s.runState.canStep = true → s.Decodes Config.defaults i →
      step s = exec i { s with runState := .running })

/-- R51, R53, R59. No bit of an encoding is dropped, whatever bytes follow the instruction, for every instruction and every
operand byte. -/
def Obligations.DecodeEncodeAgree : Prop :=
  ∀ (cfg : Config) (i : Instr) (rest tail : List Byte) (ir opA opB : Byte),
    encode cfg i ++ rest = ir :: opA :: opB :: tail → decode cfg ir opA opB = .ok i

/-- R51, R53, R59. The other direction: a decoded instruction is encoded by the bytes it was read from. -/
def Obligations.EncodeDecodeAgree : Prop :=
  ∀ (cfg : Config) (ir opA opB : Byte) (i : Instr),
    decode cfg ir opA opB = .ok i → encode cfg i = [ir, opA, opB].take i.opcode.length

/-- R54, R55. Words written bit by bit, of every format: five from the patterns of R54, and a MOD from the default byte 0xA4 of R55,
which the source does not give and the default configuration presumes (log 2). -/
def Obligations.WrittenOutWordsDecode : Prop :=
  ∀ cfg : Config,
    decode cfg 0b10000010#8 0b00000000#8 0b00001000#8 = .ok (.ldi 0#8 8#8) ∧
    decode cfg 0b01000111#8 0b00000000#8 0b00000001#8 = .ok (.prn 0#8) ∧
    decode cfg 0b00000001#8 0b00000000#8 0b00000000#8 = .ok .hlt ∧
    decode cfg 0b10100111#8 0b00000011#8 0b11111111#8 = .ok (.cmp 3#8 255#8) ∧
    decode cfg 0b01010000#8 0b00000111#8 0b00010001#8 = .ok (.call 7#8) ∧
    decode Config.defaults 0b10100100#8 0b00000101#8 0b00000110#8 = .ok (.mod 5#8 6#8)

/-- R53, whole. The whole byte is compared, exactly, with each of the 20 opcodes; a byte that matches no row is unknown. -/
def Obligations.DecodeMatchesWholeByte : Prop :=
  ∀ (cfg : Config) (ir opA opB : Byte),
    (∀ o : Opcode, o.byte cfg = ir ↔ Opcode.ofByte cfg ir = some o) ∧
    (∀ o : Opcode, o.byte cfg = ir → decode cfg ir opA opB = .ok (o.build opA opB)) ∧
    ((∀ o : Opcode, o.byte cfg ≠ ir) → decode cfg ir opA opB = .error (.unknownOpcode ir))

/-- R58. However the six open bytes are chosen, 20 bytes are opcodes and the other 236 are unknown. -/
def Obligations.UnknownOpcodesAre236 : Prop :=
  ∀ cfg : Config,
    ((List.range 256).filter (fun n => (Opcode.ofByte cfg (wrap n)).isNone)).length = 236

/-- R155. The step at an unknown opcode byte faults with pc and the byte; at 254 or 255 the fetch fault comes first (decision D8,
log 14). -/
def Obligations.UnknownOpcodeFaults : Prop :=
  ∀ (cfg : Config) (s : State), s.runState.canStep = true → (∀ o : Opcode, o.byte cfg ≠ s.mem.byte s.pc) →
    (s.pc ≤ 253 →
      stepWith cfg s = .next { s with runState := .faulted (.unknownOpcode s.pc (s.mem.byte s.pc)) }) ∧
    (s.pc = 254 ∨ s.pc = 255 → stepWith cfg s = .next { s with runState := .faulted (.outOfBounds 256) })

/-- R151, R52 (decision D8, log 14). Memory accesses fail exactly above 255; a fetch at pc 254 or more raises before decode, with
the first address out of range; no executed instruction raises it. -/
def Obligations.OutOfBoundsOnlyFromFetch : Prop :=
  (∀ (m : Memory) (addr : Nat) (v : Byte),
      (255 < addr → memRead m addr = .error (.outOfBounds addr) ∧ memWrite m addr v = .error (.outOfBounds addr)) ∧
      (addr ≤ 255 → memRead m addr = .ok (m.byte addr) ∧ memWrite m addr v = .ok (m.put addr v))) ∧
    (∀ (cfg : Config) (s : State), s.runState.canStep = true →
      (s.pc = 254 ∨ s.pc = 255 → stepWith cfg s = .next { s with runState := .faulted (.outOfBounds 256) }) ∧
      (256 ≤ s.pc → stepWith cfg s = .next { s with runState := .faulted (.outOfBounds s.pc) }) ∧
      (s.pc ≤ 253 → ∀ t address, stepWith cfg s = .next t → t.runState ≠ .faulted (.outOfBounds address))) ∧
    (∀ (i : Instr) (s t : State) (address : Nat), s.runState = .running → exec i s = .next t →
      t.runState ≠ .faulted (.outOfBounds address))

/-- R31, whole. -/
def Obligations.MemoryReadIsBoundsChecked : Prop :=
  ∀ (m : Memory) (addr : Nat),
    (addr ≤ 255 → memRead m addr = .ok (m.byte addr)) ∧ (255 < addr → memRead m addr = .error (.outOfBounds addr))

/-- R32, whole, on memories in canonical form, which the write keeps. -/
def Obligations.MemoryWriteChangesOneCell : Prop :=
  ∀ (m : Memory) (addr : Nat) (v : Byte),
    (m.wf → addr ≤ 255 → ∃ n, memWrite m addr v = .ok n ∧ n.wf ∧ memRead n addr = .ok v ∧
      ∀ x, x ≠ addr → memRead n x = memRead m x) ∧
    (255 < addr → memWrite m addr v = .error (.outOfBounds addr))

/-- R13, whole. -/
def Obligations.RegisterWriteWrapsModulo256 : Prop :=
  ∀ (i : Byte) (v : Nat) (s : State), i.toNat < 8 →
    ∃ t r, writeReg i v s = .ok t ∧ readReg i t = .ok r ∧ r.toNat = v % 256 ∧
      (∀ j : Byte, j ≠ i → readReg j t = readReg j s) ∧
      t = { s with regs := t.regs }

/-- R12 (the moment of the check is decision D13, log 8). Both accesses fail exactly for an index byte above 7, with that byte. -/
def Obligations.RegisterIndexIsNeverMasked : Prop :=
  ∀ (i : Byte) (v : Nat) (s : State),
    (8 ≤ i.toNat → readReg i s = .error (.invalidRegister i) ∧ writeReg i v s = .error (.invalidRegister i)) ∧
    (∀ h : i.toNat < 8, readReg i s = .ok s.regs[i.toNat])

/-- R25, R190. Memory zero, pc 0, SP = SP_INIT and Ready are the source's; R0..R6 = 0 and FL = 0 are decisions D2 and D3 (log
3, log 4), the empty output D19. `State.reset` is built with the default SP_INIT (log 1). -/
def Obligations.ResetStateIsAsTheTable : Prop :=
  (∀ cfg : Config,
      let s := State.resetWith cfg
      s.pc = 0 ∧ s.regs[7] = cfg.spInit ∧ (∀ (k : Nat) (hk : k < 7), s.regs[k] = 0#8) ∧ s.fl = 0#8 ∧
      s.runState = .ready ∧ s.out = [] ∧ ∀ addr, addr ≤ 255 → memRead s.mem addr = .ok 0#8) ∧
    State.reset = State.resetWith Config.defaults

/-- R25. The invariant holds at reset, under every configuration. -/
def Obligations.ResetMeetsInvariant : Prop :=
  (∀ cfg : Config, (State.resetWith cfg).Inv) ∧ State.reset.Inv

/-- R16 (D7, log 14), R18 (D4, log 5), R19, R30. Every step from every state, reachable or not, that meets the invariant. -/
def Obligations.StepKeepsInvariant : Prop :=
  (∀ (cfg : Config) (s t : State), s.Inv → stepWith cfg s = .next t → t.Inv) ∧
    (∀ s t : State, s.Inv → step s = .next t → t.Inv)

/-- R168. Load keeps the invariant too. -/
def Obligations.LoadKeepsInvariant : Prop :=
  ∀ (bytes : List Byte) (s t : State), s.Inv → load bytes s = .next t → t.Inv

/-- R158, R199, R151, R152, R154, R155. The final state of a run explains why it ended: pc is still at the HLT or the
faulting instruction and the recorded fault is the one that instruction raises (decisions D8, D12, D14, D15: logs 8, 10, 11,
14). -/
def Obligations.EveryEndIsAccountedFor : Prop :=
  (∀ (cfg : Config) (s t : State), s.pc ≤ 256 → stepWith cfg s = .next t → t.EndAccounted cfg) ∧
    (∀ s t : State, s.pc ≤ 256 → step s = .next t → t.EndAccounted Config.defaults)

/-- R61, R158 (D15, log 10), R159. Faults are precise: all of the state but RunState is as before the step. -/
def Obligations.FaultingStepChangesRunStateOnly : Prop :=
  (∀ (cfg : Config) (s t : State) (f : Fault), stepWith cfg s = .next t → t.runState = .faulted f →
      t = { s with runState := .faulted f }) ∧
    (∀ (i : Instr) (s t : State) (f : Fault), s.runState = .running → exec i s = .next t → t.runState = .faulted f →
      t = { s with runState := .faulted f })

/-- R199. No instruction is refused: exec answers a next state for every instruction in every state, and every Ready or
Running state has a step. That fault entry is a next state is log 10. -/
def Obligations.EveryLiveStateHasNextStep : Prop :=
  (∀ (i : Instr) (s : State), ∃ t, exec i s = .next t) ∧
    (∀ (cfg : Config) (s : State), s.runState.canStep = true → ∃ t, stepWith cfg s = .next t)

/-- R165: every row of the transition table (the refusals are decisions D16 and D17, logs 10 and 15); a HLT or a fault is the only
way out of Running. -/
def Obligations.RunStateTransitionsAreComplete : Prop :=
  ∀ (cfg : Config) (bytes : List Byte) (s : State),
    (State.resetWith cfg).runState = .ready ∧
    (s.runState = .ready → load bytes s = .refused .programTooLarge ∨
      ∃ t, load bytes s = .next t ∧ t.runState = .ready) ∧
    (s.runState = .ready ∨ s.runState = .running → ∃ t, stepWith cfg s = .next t ∧
      (t.runState = .running ∨ (t.runState = .halted ∧ s.Decodes cfg .hlt) ∨ ∃ f, t.runState = .faulted f) ∧
      (s.Decodes cfg .hlt → t.runState = .halted)) ∧
    (s.runState = .running → load bytes s = .refused .invalidState) ∧
    (s.runState = .halted ∨ (∃ f, s.runState = .faulted f) → ∀ n,
      stepWith cfg s = .refused .invalidState ∧ runFor cfg n s = .refused .invalidState ∧
      load bytes s = .refused .invalidState)

/-- R22, R135, R169. A step appends at most one value, and only by a PRN whose register exists. -/
def Obligations.OutputGrowsOnlyByPrint : Prop :=
  ∀ (cfg : Config) (s t : State), stepWith cfg s = .next t →
    t.out = s.out ∨ ∃ a : Byte, s.Decodes cfg (.prn a) ∧ ∃ h : a.toNat < 8, t.out = s.out ++ [s.regs[a.toNat]]

/-- R23, R33. Only a PUSH or CALL changes memory, and only the cell at the new SP. -/
def Obligations.MemoryChangesOnlyByPushAndCall : Prop :=
  ∀ (cfg : Config) (s t : State), stepWith cfg s = .next t →
    t.mem = s.mem ∨ ((∃ a : Byte, s.Decodes cfg (.push a) ∨ s.Decodes cfg (.call a)) ∧
      (s.mem.wf → ∀ x, x ≠ (s.regs[7] - 1#8).toNat → t.mem.byte x = s.mem.byte x))

/-- R17, whole: only CMP writes FL, only JEQ and JNE read it, and they read Equal alone; no other effect of any instruction
depends on FL. -/
def Obligations.OnlyCompareWritesFlagsOnlyJumpsReadEqual : Prop :=
  (∀ (i : Instr) (s t : State), exec i s = .next t → (∀ a b, i ≠ .cmp a b) → t.fl = s.fl) ∧
    (∀ (i : Instr) (s t : State) (v : Byte), exec i s = .next t → (∀ a b, i ≠ .cmp a b) →
      ((∀ a, i ≠ .jeq a ∧ i ≠ .jne a) ∨ ({ s with fl := v } : State).flagE = s.flagE) →
      exec i { s with fl := v } = .next { t with fl := v }) ∧
    (∀ (a b : Byte) (s t : State) (v : Byte), exec (.cmp a b) s = .next t →
      (a.toNat < 8 → b.toNat < 8 → exec (.cmp a b) { s with fl := v } = .next t) ∧
      (8 ≤ a.toNat ∨ 8 ≤ b.toNat → exec (.cmp a b) { s with fl := v } = .next { t with fl := v }))

/-- R19. After a CMP exactly one flag is 1; before the first none (decision D3, log 4); every other instruction and every faulting
step keeps FL. The numbers 01, 02, 04 are the layout of decision D4 (log 5). -/
def Obligations.CompareSetsExactlyOneFlag : Prop :=
  (∀ (a b : Byte) (s : State), a.toNat < 8 → b.toNat < 8 → ∃ t, exec (.cmp a b) s = .next t ∧
      t.fl ∈ [0x01#8, 0x02#8, 0x04#8] ∧
      ((t.flagE = true ∧ t.flagG = false ∧ t.flagL = false) ∨ (t.flagE = false ∧ t.flagG = true ∧ t.flagL = false) ∨
        (t.flagE = false ∧ t.flagG = false ∧ t.flagL = true))) ∧
    (∀ cfg : Config, (State.resetWith cfg).flagE = false ∧ (State.resetWith cfg).flagG = false ∧
      (State.resetWith cfg).flagL = false) ∧
    (∀ (cfg : Config) (s t : State), stepWith cfg s = .next t →
      (∀ a b, ¬ s.Decodes cfg (.cmp a b)) ∨ (∃ f, t.runState = .faulted f) → t.fl = s.fl)

/-- R95 and property V4 of the source. CMP(a,b) then CMP(b,a) mirrors Greater and Less and keeps Equal. -/
def Obligations.SwappedCompareMirrorsFlag : Prop :=
  ∀ (a b : Byte) (s : State), a.toNat < 8 → b.toNat < 8 →
    ∃ t u, exec (.cmp a b) s = .next t ∧ exec (.cmp b a) t = .next u ∧
      u.flagE = t.flagE ∧ u.flagG = t.flagL ∧ u.flagL = t.flagG

/-- R113 (with D11 for register 7, log 9). PUSH then POP on the same register restores every register and leaves the pushed
byte in its cell. -/
def Obligations.PushPopIsStackNeutral : Prop :=
  ∀ (a : Byte) (s : State), s.mem.wf → ∀ ha : a.toNat < 8,
    ∃ t u, exec (.push a) s = .next t ∧ exec (.pop a) t = .next u ∧ u.regs = s.regs ∧ u.pc = s.pc + 4 ∧
      u.mem.byte (s.regs[7] - 1#8).toNat = (t.regs)[a.toNat] ∧
      (∀ x, x ≠ (s.regs[7] - 1#8).toNat → u.mem.byte x = s.mem.byte x) ∧
      u.fl = s.fl ∧ u.out = s.out ∧ u.runState = s.runState

/-- R126. A RET from any state whose SP and return cell are as the CALL left them comes back behind the CALL with SP restored. -/
def Obligations.CallReturnRestoresStackPointer : Prop :=
  ∀ (a : Byte) (s : State), s.mem.wf → s.pc ≤ 253 → a.toNat < 8 →
    ∃ t, exec (.call a) s = .next t ∧
      ∀ u : State, u.regs[7] = t.regs[7] → u.mem.byte t.regs[7].toNat = t.mem.byte t.regs[7].toNat →
        ∃ w, exec .ret u = .next w ∧ w.pc = s.pc + 2 ∧ w.regs[7] = s.regs[7]

/-- R14, the readers and writers table. A register no instruction of that table's row writes is unchanged. -/
def Obligations.RegistersChangeOnlyAsWritten : Prop :=
  ∀ (i : Instr) (s t : State) (r : Nat) (h : r < 8), exec i s = .next t → r ∉ written i → t.regs[r] = s.regs[r]

/-- R59: lengths by format, +length for what does not redirect, a byte for what does, on natural numbers; HLT unchanged (decision
D14, log 11). -/
def Obligations.ProgramCounterAdvancesByLength : Prop :=
  (∀ (cfg : Config) (i : Instr), (encode cfg i).length = 1 + i.operands.length ∧
      (i.operands.length = 0 ↔ i = .ret ∨ i = .hlt) ∧
      (i.operands.length = 1 ↔ ∃ a, i = .prn a ∨ i = .push a ∨ i = .pop a ∨ i = .call a ∨ i = .jmp a ∨ i = .jeq a ∨
        i = .jne a ∨ i = .not a) ∧ i.operands.length ≤ 2) ∧
    (∀ (cfg : Config) (i : Instr) (s t : State), s.runState = .running → exec i s = .next t → t.runState = .running →
      redirects i s.flagE = false → t.pc = s.pc + (encode cfg i).length) ∧
    (∀ (i : Instr) (s t : State), s.runState = .running → exec i s = .next t → t.runState = .running →
      redirects i s.flagE = true → t.pc ≤ 255) ∧
    (∀ s t : State, exec .hlt s = .next t → t.pc = s.pc)

/-- R168 with decisions D16 and D17 (log 15): Load in Ready writes the cells it covers and nothing else; more than 256 bytes
write nothing. -/
def Obligations.LoadWritesTheProgramOnly : Prop :=
  ∀ (bytes : List Byte) (s : State), s.runState = .ready →
    (s.mem.wf → bytes.length ≤ 256 → ∃ m, load bytes s = .next { s with mem := m } ∧ m.wf ∧
      (∀ (k : Nat) (h : k < bytes.length), memRead m k = .ok bytes[k]) ∧
      (∀ k, bytes.length ≤ k → memRead m k = memRead s.mem k)) ∧
    (256 < bytes.length → load bytes s = .refused .programTooLarge)

/-- R191, R58 (D25, log 18). With nothing loaded the first step faults UnknownOpcode(0, 0x00), unless an open opcode byte was
chosen to be 0x00. -/
def Obligations.EmptyEngineFaultsAtOnce : Prop :=
  (∀ cfg : Config, (∀ o : Opcode, o.byte cfg ≠ 0#8) →
      stepWith cfg (State.resetWith cfg) =
        .next { State.resetWith cfg with runState := .faulted (.unknownOpcode 0 0#8) }) ∧
    step State.reset = .next { State.reset with runState := .faulted (.unknownOpcode 0 0#8) }

/-- R42 (D21, log 16) for the store of PUSH (R111). After it, a fetch anywhere sees the stored byte at the new SP and the old bytes
elsewhere. The stored byte is named as the register after the PUSH: for a = 7 that is the decremented SP by decision D11 (log 9).
The same store of a CALL is in CallPushesReturnAddress. -/
def Obligations.PushedByteIsSeenByNextFetch : Prop :=
  ∀ (a : Byte) (s : State), s.mem.wf → ∀ ha : a.toNat < 8, ∃ t, exec (.push a) s = .next t ∧
    ∀ p, p ≤ 253 →
      let seen := fun q => if q = (s.regs[7] - 1#8).toNat then t.regs[a.toNat] else s.mem.byte q
      fetch { t with pc := p } = .ok (seen p, seen (p + 1), seen (p + 2))

/-- R167 (that a Ready engine runs is decision D18, the host's bound is log 19). A Run bounded by n answers a state that keeps the
invariant and explains its end (R199); while that state can step, one more step of the bound is one more Step from it; once it is
Halted or Faulted, every larger bound answers it again. After one step no run is Ready. In a terminal state Run is refused (D16,
log 10). The invariant rests on decisions D4 and D7 (logs 5 and 14), the account of the end on D8, D12, D14 and D15 (logs 14, 8, 11
and 10), as in StepKeepsInvariant and EveryEndIsAccountedFor. -/
def Obligations.BoundedRunStepsUntilTerminal : Prop :=
  ∀ (cfg : Config) (n : Nat) (s : State),
    (s.runState.canStep = true → runFor cfg 0 s = .next s ∧ ∃ t, runFor cfg n s = .next t ∧
      (s.Inv → t.Inv ∧ t.EndAccounted cfg) ∧
      (0 < n → t.runState ≠ .ready) ∧
      (t.runState.canStep = true → ∃ u, stepWith cfg t = .next u ∧ runFor cfg (n + 1) s = .next u) ∧
      (t.runState.canStep = false → (t.runState = .halted ∨ ∃ f, t.runState = .faulted f) ∧
        ∀ m, runFor cfg (n + m) s = .next t)) ∧
    (s.runState.canStep = false → runFor cfg n s = .refused .invalidState)

/-- R200. The final state of a run is determined by the state it starts from, whatever bounds a host uses. -/
def Obligations.RunHasOneResult : Prop :=
  ∀ (cfg : Config) (s t u : State), RunReturns cfg s t → RunReturns cfg s u → t = u

/-- R160 (D12, log 8): a before b, and index faults before the zero divisor. That a fetch at pc 254 to 256 faults with address 256
before any decode is decision D8 (log 14). -/
def Obligations.FaultPriorityIsTheStepOrder : Prop :=
  (∀ (a b : Byte) (s : State) (i : Instr), 8 ≤ a.toNat → 8 ≤ b.toNat →
      i ∈ [.mul a b, .add a b, .cmp a b, .and a b, .or a b, .xor a b, .shl a b, .shr a b, .mod a b] →
      exec i s = .next { s with runState := .faulted (.invalidRegister a) }) ∧
    (∀ (a b : Byte) (s : State) (hb : b.toNat < 8), 8 ≤ a.toNat → s.regs[b.toNat] = 0#8 →
      exec (.mod a b) s = .next { s with runState := .faulted (.invalidRegister a) }) ∧
    (∀ (cfg : Config) (s : State), s.runState.canStep = true → 254 ≤ s.pc → s.pc ≤ 256 →
      stepWith cfg s = .next { s with runState := .faulted (.outOfBounds 256) })

/-- R97, R153, `[derived]` in the spec. No step raises it; the named interface of the ALU raises it exactly for the names
outside the ten. -/
def Obligations.UnsupportedOperationIsUnreachable : Prop :=
  (∀ (cfg : Config) (s t : State) (name : String), stepWith cfg s = .next t →
      t.runState ≠ .faulted (.unsupportedOperation name)) ∧
    (∀ (name : String) (a b : Byte) (s : State),
      (name ∉ ["ADD", "MUL", "AND", "OR", "XOR", "NOT", "SHL", "SHR", "MOD", "CMP"] →
        aluByName name a b s = .error (.unsupportedOperation name)) ∧
      (name ∈ ["ADD", "MUL", "AND", "OR", "XOR", "NOT", "SHL", "SHR", "MOD", "CMP"] →
        aluByName name a b s ≠ .error (.unsupportedOperation name)))

/-- R154, whole. -/
def Obligations.DivisionByZeroOnlyFromMod : Prop :=
  (∀ (i : Instr) (s t : State), s.runState = .running → exec i s = .next t → t.runState = .faulted .divisionByZero →
      t = { s with runState := .faulted .divisionByZero } ∧
      ∃ a b, i = .mod a b ∧ a.toNat < 8 ∧ ∃ hb : b.toNat < 8, s.regs[b.toNat] = 0#8) ∧
    (∀ (a b : Byte) (s : State) (hb : b.toNat < 8), a.toNat < 8 → s.regs[b.toNat] = 0#8 →
      exec (.mod a b) s = .next { s with runState := .faulted .divisionByZero })

/-- R152 (D12, D13, log 8). Only a register operand above 7 of the instruction itself is ever reported, so a well-formed
instruction never raises it. -/
def Obligations.InvalidRegisterNamesAnOperand : Prop :=
  ∀ (i : Instr) (s t : State) (index : Byte), s.runState = .running → exec i s = .next t →
    t.runState = .faulted (.invalidRegister index) →
    index ∈ i.registers ∧ 8 ≤ index.toNat ∧ i.wellFormed = false

/-- R44, R33. The stack wraps modulo 256 instead of faulting: SP is always a legal address. -/
def Obligations.StackAccessNeverFaults : Prop :=
  ∀ (s : State) (v : Byte),
    storeAtSp v (decSp s) = .ok { s with regs := s.regs.set 7 (s.regs[7] - 1#8),
                                         mem := s.mem.put (s.regs[7] - 1#8).toNat v } ∧
    loadAtSp s = .ok (s.mem.byte s.regs[7].toNat) ∧
    (s.regs[7] = 0#8 → (decSp s).regs[7] = 255#8) ∧ (s.regs[7] = 255#8 → (incSp s).regs[7] = 0#8)
end

