-- ==== Sys2Proof/Laws/Decode.lean ====
section
/-! SUPPORT. The opcode map: the 20 bytes are pairwise distinct, so a byte selects at most one row. -/

namespace Sys2Proof.Laws

theorem mem_all (o : Opcode) : o ∈ Opcode.all := by cases o <;> simp [Opcode.all]

/-- The 20 opcode bytes in R60's order are the 14 given ones and the six parameters. -/
theorem map_byte_all (cfg : Config) : Opcode.all.map (Opcode.byte cfg) =
    givenOpcodes ++ [cfg.opcAnd, cfg.opcOr, cfg.opcXor, cfg.opcShl, cfg.opcShr, cfg.opcMod] := rfl

/-- No two rows share a byte (R55). -/
theorem byte_injective (cfg : Config) (o p : Opcode) (h : o.byte cfg = p.byte cfg) : o = p :=
  List.inj_on_of_nodup_map (map_byte_all cfg ▸ cfg.distinct) (mem_all o) (mem_all p) h

theorem ofByte_byte (cfg : Config) (o : Opcode) : Opcode.ofByte cfg (o.byte cfg) = some o := by
  cases h : Opcode.ofByte cfg (o.byte cfg) with
  | none => exact absurd (List.find?_eq_none.mp h o (mem_all o)) (by simp)
  | some p => exact congrArg some (byte_injective cfg p o (by simpa using List.find?_some h))

end Sys2Proof.Laws
end

