-- ==== Sys2Proof/Laws/Memory.lean ====
section
/-! SUPPORT. Memory: what a read after a write gives, and that every memory operation keeps the canonical form. -/

namespace Sys2Proof.Laws

open Sys2Proof.Machine

theorem wf_nil : Memory.wf [] := ⟨.nil, by simp⟩

/-- An address below every listed one is unlisted. -/
theorem byte_of_lt (m : Memory) (addr : Nat) (h : ∀ c ∈ m, addr < c.1) : m.byte addr = unwritten := by
  induction m with
  | nil => rfl
  | cons c m ih =>
    obtain ⟨k, w⟩ := c
    have hk : addr < k := h (k, w) (by simp)
    have hne : addr ≠ k := by omega
    simp only [Memory.byte, if_neg hne]
    exact ih fun c hc => h c (by simp [hc])

theorem byte_cell_append (m : Memory) (addr : Nat) (v : Byte) (x : Nat) (h : ∀ c ∈ m, addr < c.1) :
    Memory.byte (Memory.cell addr v ++ m) x = if x = addr then v else m.byte x := by
  unfold Memory.cell
  by_cases hv : v = unwritten
  · by_cases hx : x = addr
    · subst hx; simp [hv, byte_of_lt m x h]
    · simp [hv, hx]
  · simp [hv, Memory.byte]

/-- A read after a write: the written cell holds the new byte, every other cell its old one. -/
theorem byte_put (m : Memory) (hm : m.wf) (addr : Nat) (v : Byte) (x : Nat) :
    (m.put addr v).byte x = if x = addr then v else m.byte x := by
  induction m with
  | nil => simpa [Memory.put] using byte_cell_append [] addr v x (by simp)
  | cons c m ih =>
    obtain ⟨k, w⟩ := c
    have hlt : ∀ c ∈ m, k < c.1 := (List.pairwise_cons.mp hm.1).1
    have hwf : Memory.wf m := ⟨(List.pairwise_cons.mp hm.1).2, fun c hc => hm.2 c (by simp [hc])⟩
    unfold Memory.put
    by_cases h1 : addr < k
    · rw [if_pos h1]
      refine byte_cell_append _ addr v x fun c hc => ?_
      rcases List.mem_cons.mp hc with rfl | hc
      · exact h1
      · exact h1.trans (hlt c hc)
    · rw [if_neg h1]
      by_cases h2 : addr = k
      · subst h2
        rw [if_pos rfl, byte_cell_append m addr v x hlt]
        by_cases hx : x = addr <;> simp [Memory.byte, hx]
      · rw [if_neg h2]
        by_cases hx : x = k
        · subst hx; simp [Memory.byte, Ne.symm h2]
        · simpa [Memory.byte, hx] using ih hwf

theorem mem_put (m : Memory) (addr : Nat) (v : Byte) (c : Host.Cell) (h : c ∈ m.put addr v) :
    c ∈ m ∨ (c = (addr, v) ∧ v ≠ unwritten) := by
  have hcell : ∀ d ∈ Memory.cell addr v, d = (addr, v) ∧ v ≠ unwritten := by
    intro d hd
    unfold Memory.cell at hd
    split at hd <;> simp_all
  induction m with
  | nil => exact .inr (hcell c h)
  | cons d m ih =>
    obtain ⟨k, w⟩ := d
    unfold Memory.put at h
    split at h
    · rcases List.mem_append.mp h with h | h
      · exact .inr (hcell c h)
      · exact .inl h
    · split at h
      · rcases List.mem_append.mp h with h | h
        · exact .inr (hcell c h)
        · exact .inl (List.mem_cons_of_mem _ h)
      · rcases List.mem_cons.mp h with rfl | h
        · exact .inl (by simp)
        · exact (ih h).imp (List.mem_cons_of_mem _) id

theorem wf_cell_append (m : Memory) (hm : m.wf) (addr : Nat) (v : Byte) (ha : addr < 256) (h : ∀ c ∈ m, addr < c.1) :
    Memory.wf (Memory.cell addr v ++ m) := by
  unfold Memory.cell
  split
  · simpa using hm
  · rename_i hv
    refine ⟨?_, ?_⟩
    · simpa using And.intro (fun a b hab => h (a, b) hab) hm.1
    · intro c hc
      rcases List.mem_append.mp hc with hc | hc
      · have : c = (addr, v) := by simpa using hc
        subst this; exact ⟨ha, hv⟩
      · exact hm.2 c hc

/-- A write inside the address space keeps the canonical form. -/
theorem wf_put (m : Memory) (hm : m.wf) (addr : Nat) (v : Byte) (ha : addr < 256) : (m.put addr v).wf := by
  induction m with
  | nil => simpa [Memory.put] using wf_cell_append [] wf_nil addr v ha (by simp)
  | cons c m ih =>
    obtain ⟨k, w⟩ := c
    have hlt : ∀ c ∈ m, k < c.1 := (List.pairwise_cons.mp hm.1).1
    have hwf : Memory.wf m := ⟨(List.pairwise_cons.mp hm.1).2, fun c hc => hm.2 c (by simp [hc])⟩
    unfold Memory.put
    by_cases h1 : addr < k
    · rw [if_pos h1]
      refine wf_cell_append _ hm addr v ha fun c hc => ?_
      rcases List.mem_cons.mp hc with rfl | hc
      · exact h1
      · exact h1.trans (hlt c hc)
    · rw [if_neg h1]
      by_cases h2 : addr = k
      · subst h2
        rw [if_pos rfl]
        exact wf_cell_append m hwf addr v ha hlt
      · rw [if_neg h2]
        refine ⟨List.pairwise_cons.mpr ⟨fun c hc => ?_, (ih hwf).1⟩, fun c hc => ?_⟩
        · rcases mem_put m addr v c hc with hc | ⟨rfl, -⟩
          · exact hlt c hc
          · show k < addr
            omega
        · rcases List.mem_cons.mp hc with rfl | hc
          · exact hm.2 _ (by simp)
          · exact (ih hwf).2 c hc

/-- Storing a sequence of bytes keeps the canonical form. -/
theorem wf_putBytes (m : Memory) (hm : m.wf) (addr : Nat) (vs : List Byte) : (m.putBytes addr vs).wf := by
  induction vs generalizing m addr with
  | nil => exact hm
  | cons v vs ih =>
    unfold Memory.putBytes
    refine ih _ ?_ _
    split
    · exact wf_put m hm addr v ‹_›
    · exact hm

/-- What a cell holds after a sequence of bytes was stored inside the address space. -/
theorem byte_putBytes (m : Memory) (hm : m.wf) (addr : Nat) (vs : List Byte) (h : addr + vs.length ≤ 256) (x : Nat) :
    (m.putBytes addr vs).byte x = if addr ≤ x ∧ x < addr + vs.length then vs.getD (x - addr) 0#8 else m.byte x := by
  induction vs generalizing m addr with
  | nil =>
    have : ¬ (addr ≤ x ∧ x < addr + ([] : List Byte).length) := by simp
    rw [if_neg this, Memory.putBytes]
  | cons v vs ih =>
    simp only [List.length_cons] at h
    have ha : addr < 256 := by omega
    unfold Memory.putBytes
    rw [if_pos ha, ih _ (wf_put m hm addr v ha) _ (by omega), byte_put m hm]
    by_cases hx : x = addr
    · subst hx; simp
    · by_cases hr : addr + 1 ≤ x ∧ x < addr + 1 + vs.length
      · obtain ⟨d, rfl⟩ : ∃ d, x = addr + 1 + d := ⟨x - (addr + 1), by omega⟩
        have e1 : addr + 1 + d - addr = d + 1 := by omega
        have e2 : addr + 1 + d - (addr + 1) = d := by omega
        have hd : d < vs.length := by omega
        simp [e1, e2, hd]
        omega
      · have : ¬ (addr ≤ x ∧ x < addr + (v :: vs).length) := by simp only [List.length_cons]; omega
        rw [if_neg hr, if_neg hx, if_neg this]

end Sys2Proof.Laws
end

