-- ==== Sys2Proof/Laws/State.lean ====
section
/-! SUPPORT. One lemma per field per named update of State, true by rfl, so that no proof unfolds an update. -/

namespace Sys2Proof.Laws

open Sys2Proof.Machine

variable (s : State)

@[simp] theorem advance_regs (n : Nat) : (advance n s).regs = s.regs := rfl
@[simp] theorem advance_pc (n : Nat) : (advance n s).pc = s.pc + n := rfl
@[simp] theorem advance_fl (n : Nat) : (advance n s).fl = s.fl := rfl
@[simp] theorem advance_mem (n : Nat) : (advance n s).mem = s.mem := rfl
@[simp] theorem advance_runState (n : Nat) : (advance n s).runState = s.runState := rfl
@[simp] theorem advance_out (n : Nat) : (advance n s).out = s.out := rfl

@[simp] theorem jumpTo_regs (v : Byte) : (jumpTo v s).regs = s.regs := rfl
@[simp] theorem jumpTo_pc (v : Byte) : (jumpTo v s).pc = v.toNat := rfl
@[simp] theorem jumpTo_fl (v : Byte) : (jumpTo v s).fl = s.fl := rfl
@[simp] theorem jumpTo_mem (v : Byte) : (jumpTo v s).mem = s.mem := rfl
@[simp] theorem jumpTo_runState (v : Byte) : (jumpTo v s).runState = s.runState := rfl
@[simp] theorem jumpTo_out (v : Byte) : (jumpTo v s).out = s.out := rfl

@[simp] theorem emit_regs (v : Byte) : (emit v s).regs = s.regs := rfl
@[simp] theorem emit_pc (v : Byte) : (emit v s).pc = s.pc := rfl
@[simp] theorem emit_fl (v : Byte) : (emit v s).fl = s.fl := rfl
@[simp] theorem emit_mem (v : Byte) : (emit v s).mem = s.mem := rfl
@[simp] theorem emit_runState (v : Byte) : (emit v s).runState = s.runState := rfl
@[simp] theorem emit_out (v : Byte) : (emit v s).out = s.out ++ [v] := rfl

@[simp] theorem setFl_regs (v : Byte) : (setFl v s).regs = s.regs := rfl
@[simp] theorem setFl_pc (v : Byte) : (setFl v s).pc = s.pc := rfl
@[simp] theorem setFl_fl (v : Byte) : (setFl v s).fl = v := rfl
@[simp] theorem setFl_mem (v : Byte) : (setFl v s).mem = s.mem := rfl
@[simp] theorem setFl_runState (v : Byte) : (setFl v s).runState = s.runState := rfl
@[simp] theorem setFl_out (v : Byte) : (setFl v s).out = s.out := rfl

@[simp] theorem setSp_regs (v : Byte) : (s.setSp v).regs = s.regs.set 7 v := rfl
@[simp] theorem setSp_pc (v : Byte) : (s.setSp v).pc = s.pc := rfl
@[simp] theorem setSp_fl (v : Byte) : (s.setSp v).fl = s.fl := rfl
@[simp] theorem setSp_mem (v : Byte) : (s.setSp v).mem = s.mem := rfl
@[simp] theorem setSp_runState (v : Byte) : (s.setSp v).runState = s.runState := rfl
@[simp] theorem setSp_out (v : Byte) : (s.setSp v).out = s.out := rfl

@[simp] theorem decSp_regs : (decSp s).regs = s.regs.set 7 (s.regs[7] - 1) := rfl
@[simp] theorem decSp_pc : (decSp s).pc = s.pc := rfl
@[simp] theorem decSp_fl : (decSp s).fl = s.fl := rfl
@[simp] theorem decSp_mem : (decSp s).mem = s.mem := rfl
@[simp] theorem decSp_runState : (decSp s).runState = s.runState := rfl
@[simp] theorem decSp_out : (decSp s).out = s.out := rfl

@[simp] theorem incSp_regs : (incSp s).regs = s.regs.set 7 (s.regs[7] + 1) := rfl
@[simp] theorem incSp_pc : (incSp s).pc = s.pc := rfl
@[simp] theorem incSp_fl : (incSp s).fl = s.fl := rfl
@[simp] theorem incSp_mem : (incSp s).mem = s.mem := rfl
@[simp] theorem incSp_runState : (incSp s).runState = s.runState := rfl
@[simp] theorem incSp_out : (incSp s).out = s.out := rfl

@[simp] theorem takeFault_regs (f : Fault) : (takeFault f s).regs = s.regs := rfl
@[simp] theorem takeFault_pc (f : Fault) : (takeFault f s).pc = s.pc := rfl
@[simp] theorem takeFault_fl (f : Fault) : (takeFault f s).fl = s.fl := rfl
@[simp] theorem takeFault_mem (f : Fault) : (takeFault f s).mem = s.mem := rfl
@[simp] theorem takeFault_runState (f : Fault) : (takeFault f s).runState = .faulted f := rfl
@[simp] theorem takeFault_out (f : Fault) : (takeFault f s).out = s.out := rfl

@[simp] theorem beginStep_regs : (beginStep s).regs = s.regs := rfl
@[simp] theorem beginStep_pc : (beginStep s).pc = s.pc := rfl
@[simp] theorem beginStep_fl : (beginStep s).fl = s.fl := rfl
@[simp] theorem beginStep_mem : (beginStep s).mem = s.mem := rfl
@[simp] theorem beginStep_runState : (beginStep s).runState = .running := rfl
@[simp] theorem beginStep_out : (beginStep s).out = s.out := rfl

@[simp] theorem placeWord_regs (nbits w : Nat) : (placeWord nbits w s).regs = s.regs := rfl
@[simp] theorem placeWord_pc (nbits w : Nat) : (placeWord nbits w s).pc = s.pc := rfl
@[simp] theorem placeWord_fl (nbits w : Nat) : (placeWord nbits w s).fl = s.fl := rfl
@[simp] theorem placeWord_mem (nbits w : Nat) : (placeWord nbits w s).mem = s.mem.putBytes s.pc (wordBytes nbits w) := rfl
@[simp] theorem placeWord_runState (nbits w : Nat) : (placeWord nbits w s).runState = s.runState := rfl
@[simp] theorem placeWord_out (nbits w : Nat) : (placeWord nbits w s).out = s.out := rfl

/-- SP is register 7 (R14). -/
@[simp] theorem sp_eq : s.sp = s.regs[7] := rfl

@[simp] theorem resetWith_regs (cfg : Config) :
    (State.resetWith cfg).regs = #v[0#8, 0#8, 0#8, 0#8, 0#8, 0#8, 0#8, cfg.spInit] := rfl
@[simp] theorem resetWith_pc (cfg : Config) : (State.resetWith cfg).pc = 0 := rfl
@[simp] theorem resetWith_fl (cfg : Config) : (State.resetWith cfg).fl = 0#8 := rfl
@[simp] theorem resetWith_mem (cfg : Config) : (State.resetWith cfg).mem = [] := rfl
@[simp] theorem resetWith_runState (cfg : Config) : (State.resetWith cfg).runState = .ready := rfl
@[simp] theorem resetWith_out (cfg : Config) : (State.resetWith cfg).out = [] := rfl

end Sys2Proof.Laws
end

