-- ==== Sys2Proof/Laws/Ops.lean ====
section
/-! SUPPORT. One spec lemma per shared operation: everything it can answer. Later proofs cite these and do not unfold it. -/

namespace Sys2Proof.Laws

open Sys2Proof.Machine

/-! ### Memory primitives -/

theorem memRead_ok (m : Memory) (addr : Nat) (h : addr ≤ 255) : memRead m addr = .ok (m.byte addr) :=
  if_neg (by omega)

theorem memRead_error (m : Memory) (addr : Nat) (h : 255 < addr) : memRead m addr = .error (.outOfBounds addr) :=
  if_pos h

theorem memWrite_ok (m : Memory) (addr : Nat) (v : Byte) (h : addr ≤ 255) : memWrite m addr v = .ok (m.put addr v) :=
  if_neg (by omega)

theorem memWrite_error (m : Memory) (addr : Nat) (v : Byte) (h : 255 < addr) :
    memWrite m addr v = .error (.outOfBounds addr) :=
  if_pos h

/-! ### Register primitives -/

theorem readReg_ok (i : Byte) (s : State) (h : i.toNat < 8) : readReg i s = .ok s.regs[i.toNat] := dif_pos h

theorem readReg_error (i : Byte) (s : State) (h : 8 ≤ i.toNat) : readReg i s = .error (.invalidRegister i) :=
  dif_neg (by omega)

theorem writeReg_ok (i : Byte) (v : Nat) (s : State) (h : i.toNat < 8) :
    writeReg i v s = .ok { s with regs := s.regs.set i.toNat (wrap v) } := dif_pos h

theorem writeReg_error (i : Byte) (v : Nat) (s : State) (h : 8 ≤ i.toNat) :
    writeReg i v s = .error (.invalidRegister i) := dif_neg (by omega)

/-- A byte is its own reduction modulo 256. -/
@[simp] theorem wrap_toNat (v : Byte) : wrap v.toNat = v := by simp [wrap]

/-! ### The stack: SP is always a legal address, so neither half can raise (R33, R44) -/

theorem storeAtSp_eq (v : Byte) (s : State) : storeAtSp v s = .ok { s with mem := s.mem.put s.regs[7].toNat v } := by
  simp [storeAtSp, memWrite_ok _ _ _ (show s.regs[7].toNat ≤ 255 by have := s.regs[7].isLt; omega), bind, Except.bind]

theorem loadAtSp_eq (s : State) : loadAtSp s = .ok (s.mem.byte s.regs[7].toNat) :=
  memRead_ok _ _ (by have := s.regs[7].isLt; simp only [sp_eq]; omega)

/-! ### Operand forms -/

theorem oneOperand_ok (a : Byte) (s : State) (h : a.toNat < 8) : oneOperand a s = .ok s.regs[a.toNat] := readReg_ok a s h

theorem oneOperand_error (a : Byte) (s : State) (h : 8 ≤ a.toNat) : oneOperand a s = .error (.invalidRegister a) :=
  readReg_error a s h

theorem twoOperands_ok (a b : Byte) (s : State) (ha : a.toNat < 8) (hb : b.toNat < 8) :
    twoOperands a b s = .ok (s.regs[a.toNat], s.regs[b.toNat]) := by
  simp [twoOperands, readReg_ok, ha, hb, bind, Except.bind]

theorem twoOperands_error_left (a b : Byte) (s : State) (ha : 8 ≤ a.toNat) :
    twoOperands a b s = .error (.invalidRegister a) := by
  simp [twoOperands, readReg_error, ha, bind, Except.bind]

theorem twoOperands_error_right (a b : Byte) (s : State) (ha : a.toNat < 8) (hb : 8 ≤ b.toNat) :
    twoOperands a b s = .error (.invalidRegister b) := by
  simp [twoOperands, readReg_ok, readReg_error, ha, hb, bind, Except.bind]

/-- Everything a taken jump can do. -/
theorem jumpVia_ok (a : Byte) (s : State) (h : a.toNat < 8) : jumpVia a s = .ok { s with pc := s.regs[a.toNat].toNat } := by
  simp [jumpVia, oneOperand_ok, h, bind, Except.bind, jumpTo]

theorem jumpVia_error (a : Byte) (s : State) (h : 8 ≤ a.toNat) : jumpVia a s = .error (.invalidRegister a) := by
  simp [jumpVia, oneOperand_error, h, bind, Except.bind]

/-! ### The ALU -/

theorem aluBinary_ok (f : Byte → Byte → Except Fault Nat) (a b : Byte) (s : State) (r : Nat) (ha : a.toNat < 8)
    (hb : b.toNat < 8) (hf : f s.regs[a.toNat] s.regs[b.toNat] = .ok r) :
    aluBinary f a b s = .ok { s with regs := s.regs.set a.toNat (wrap r) } := by
  simp [aluBinary, twoOperands_ok, writeReg_ok, ha, hb, hf, bind, Except.bind]

theorem aluBinary_error_left (f : Byte → Byte → Except Fault Nat) (a b : Byte) (s : State) (ha : 8 ≤ a.toNat) :
    aluBinary f a b s = .error (.invalidRegister a) := by
  simp [aluBinary, twoOperands_error_left, ha, bind, Except.bind]

theorem aluBinary_error_right (f : Byte → Byte → Except Fault Nat) (a b : Byte) (s : State) (ha : a.toNat < 8)
    (hb : 8 ≤ b.toNat) : aluBinary f a b s = .error (.invalidRegister b) := by
  simp [aluBinary, twoOperands_error_right, ha, hb, bind, Except.bind]

theorem aluBinary_error_value (f : Byte → Byte → Except Fault Nat) (a b : Byte) (s : State) (e : Fault) (ha : a.toNat < 8)
    (hb : b.toNat < 8) (hf : f s.regs[a.toNat] s.regs[b.toNat] = .error e) : aluBinary f a b s = .error e := by
  simp [aluBinary, twoOperands_ok, ha, hb, hf, bind, Except.bind]

theorem aluNot_ok (a : Byte) (s : State) (ha : a.toNat < 8) :
    aluNot a s = .ok { s with regs := s.regs.set a.toNat (wrap (notValue s.regs[a.toNat])) } := by
  simp [aluNot, oneOperand_ok, writeReg_ok, ha, bind, Except.bind]

theorem aluNot_error (a : Byte) (s : State) (ha : 8 ≤ a.toNat) : aluNot a s = .error (.invalidRegister a) := by
  simp [aluNot, oneOperand_error, ha, bind, Except.bind]

theorem aluCmp_ok (a b : Byte) (s : State) (ha : a.toNat < 8) (hb : b.toNat < 8) :
    aluCmp a b s = .ok { s with fl := compareFlags s.regs[a.toNat] s.regs[b.toNat] } := by
  simp [aluCmp, twoOperands_ok, ha, hb, bind, Except.bind, setFl]

theorem aluCmp_error_left (a b : Byte) (s : State) (ha : 8 ≤ a.toNat) : aluCmp a b s = .error (.invalidRegister a) := by
  simp [aluCmp, twoOperands_error_left, ha, bind, Except.bind]

theorem aluCmp_error_right (a b : Byte) (s : State) (ha : a.toNat < 8) (hb : 8 ≤ b.toNat) :
    aluCmp a b s = .error (.invalidRegister b) := by
  simp [aluCmp, twoOperands_error_right, ha, hb, bind, Except.bind]

/-! ### Commit and fetch -/

@[simp] theorem commit_ok (s t : State) : commit s (.ok t) = .next t := rfl

@[simp] theorem commit_error (s : State) (f : Fault) : commit s (.error f) = .next { s with runState := .faulted f } := rfl

/-- Everything a commit can answer: the committed state, or the fault taken in the state before the step. -/
theorem commit_cases {s t : State} {r : Except Fault State} (h : commit s r = .next t) :
    r = .ok t ∨ ∃ f, r = .error f ∧ t = { s with runState := .faulted f } := by
  cases r with
  | ok u => exact .inl (by simpa using h)
  | error f => exact .inr ⟨f, rfl, by simpa using h.symm⟩

theorem fetch_ok (s : State) (h : s.pc ≤ 253) :
    fetch s = .ok (s.mem.byte s.pc, s.mem.byte (s.pc + 1), s.mem.byte (s.pc + 2)) := by
  simp [fetch, memRead_ok s.mem s.pc (by omega), memRead_ok s.mem (s.pc + 1) (by omega),
    memRead_ok s.mem (s.pc + 2) (by omega), bind, Except.bind]

/-- The address a fetch reports is the first out of range: 256 up to pc = 256, then pc itself. -/
theorem fetch_error (s : State) (h : 254 ≤ s.pc) : fetch s = .error (.outOfBounds (max 256 s.pc)) := by
  rcases (by omega : s.pc = 254 ∨ s.pc = 255 ∨ 256 ≤ s.pc) with h | h | h
  · simp [fetch, h, memRead, bind, Except.bind]
  · simp [fetch, h, memRead, bind, Except.bind]
  · simp [fetch, memRead_error s.mem s.pc (by omega), bind, Except.bind, Nat.max_eq_right h]

end Sys2Proof.Laws
end

