-- ==== Sys2Proof/Laws/PerInstr.lean ====
section
/-! SUPPORT. Families of statements made once per instruction (LAWS.json). -/

namespace Sys2Proof.Laws

/-- The encoding of an instruction is as many bytes as the length of its row (30_encoding.md R59). -/
def EncodedLength.Statement (i : Instr) : Prop :=
  ∀ cfg : Config, (encode cfg i).length = i.opcode.length

theorem EncodedLength.ldi (a imm : Byte) : EncodedLength.Statement (.ldi a imm) := fun _ => rfl
theorem EncodedLength.mul (a b : Byte) : EncodedLength.Statement (.mul a b) := fun _ => rfl
theorem EncodedLength.prn (a : Byte) : EncodedLength.Statement (.prn a) := fun _ => rfl
theorem EncodedLength.push (a : Byte) : EncodedLength.Statement (.push a) := fun _ => rfl
theorem EncodedLength.pop (a : Byte) : EncodedLength.Statement (.pop a) := fun _ => rfl
theorem EncodedLength.call (a : Byte) : EncodedLength.Statement (.call a) := fun _ => rfl
theorem EncodedLength.ret : EncodedLength.Statement .ret := fun _ => rfl
theorem EncodedLength.add (a b : Byte) : EncodedLength.Statement (.add a b) := fun _ => rfl
theorem EncodedLength.cmp (a b : Byte) : EncodedLength.Statement (.cmp a b) := fun _ => rfl
theorem EncodedLength.jmp (a : Byte) : EncodedLength.Statement (.jmp a) := fun _ => rfl
theorem EncodedLength.jeq (a : Byte) : EncodedLength.Statement (.jeq a) := fun _ => rfl
theorem EncodedLength.jne (a : Byte) : EncodedLength.Statement (.jne a) := fun _ => rfl
theorem EncodedLength.and (a b : Byte) : EncodedLength.Statement (.and a b) := fun _ => rfl
theorem EncodedLength.or (a b : Byte) : EncodedLength.Statement (.or a b) := fun _ => rfl
theorem EncodedLength.xor (a b : Byte) : EncodedLength.Statement (.xor a b) := fun _ => rfl
theorem EncodedLength.shl (a b : Byte) : EncodedLength.Statement (.shl a b) := fun _ => rfl
theorem EncodedLength.shr (a b : Byte) : EncodedLength.Statement (.shr a b) := fun _ => rfl
theorem EncodedLength.mod (a b : Byte) : EncodedLength.Statement (.mod a b) := fun _ => rfl
theorem EncodedLength.not (a : Byte) : EncodedLength.Statement (.not a) := fun _ => rfl
theorem EncodedLength.hlt : EncodedLength.Statement .hlt := fun _ => rfl

end Sys2Proof.Laws
end

