-- ==== Sys2Proof/Laws/Step.lean ====
section
/-! SUPPORT. What an instruction and a step can do, said once: every meaning is a commit, and a step that answers a next state
took a fetch fault, took a decode fault, or ran the decoded instruction. Then the small laws of a bounded run. -/

namespace Sys2Proof.Laws

open Sys2Proof.Machine

/-- Every meaning is the commit of some result computed from the state it began in. -/
theorem exec_is_commit (i : Instr) (s : State) : ∃ r, exec i s = commit s r := by
  cases i with
  | hlt => exact ⟨.ok { s with runState := .halted }, rfl⟩
  | _ => exact ⟨_, rfl⟩

theorem decode_ok_iff (cfg : Config) (ir opA opB : Byte) (i : Instr) :
    decode cfg ir opA opB = .ok i ↔ ∃ o, Opcode.ofByte cfg ir = some o ∧ i = o.build opA opB := by
  unfold decode
  cases Opcode.ofByte cfg ir <;> simp [eq_comm]

theorem decode_error_iff (cfg : Config) (ir opA opB : Byte) (e : DecodeError) :
    decode cfg ir opA opB = .error e ↔ Opcode.ofByte cfg ir = none ∧ e = .unknownOpcode ir := by
  unfold decode
  cases Opcode.ofByte cfg ir <;> simp [eq_comm]

/-- The three ways a step can answer a next state. -/
theorem stepWith_cases {cfg : Config} {s t : State} (h : stepWith cfg s = .next t) :
    s.runState.canStep = true ∧
    ((254 ≤ s.pc ∧ t = { s with runState := .faulted (.outOfBounds (max 256 s.pc)) }) ∨
     (s.pc ≤ 253 ∧ Opcode.ofByte cfg (s.mem.byte s.pc) = none ∧
       t = { s with runState := .faulted (.unknownOpcode s.pc (s.mem.byte s.pc)) }) ∨
     ∃ i, s.Decodes cfg i ∧ exec i { s with runState := .running } = .next t) := by
  unfold stepWith at h
  split at h
  case isFalse => simp at h
  case isTrue hc =>
    refine ⟨hc, ?_⟩
    unfold cycle at h
    by_cases hp : s.pc ≤ 253
    · rw [fetch_ok (beginStep s) hp] at h
      simp only [beginStep_mem, beginStep_pc] at h
      split at h
      · rename_i byte hd
        obtain ⟨ho, he⟩ := (decode_error_iff ..).mp hd
        obtain rfl : byte = _ := by simpa using he
        exact .inr (.inl ⟨hp, ho, by simpa [takeFault, beginStep] using h.symm⟩)
      · rename_i i hd
        exact .inr (.inr ⟨i, ⟨hp, hd⟩, h⟩)
    · have hp : 254 ≤ s.pc := by omega
      rw [fetch_error (beginStep s) hp] at h
      exact .inl ⟨hp, by simpa [takeFault, beginStep] using h.symm⟩

/-- A run stays where Step answers no next state. -/
theorem runLoop_stuck (cfg : Config) (n : Nat) {s : State} (h : ∀ t, stepWith cfg s ≠ .next t) : runLoop cfg n s = s := by
  cases n with
  | zero => rfl
  | succ n =>
    unfold runLoop
    split
    · exact absurd ‹_› (h _)
    · rfl
    · rfl

/-- A run stays at a terminal state. -/
theorem runLoop_terminal (cfg : Config) (n : Nat) {s : State} (h : s.runState.canStep = false) : runLoop cfg n s = s :=
  runLoop_stuck cfg n fun _ ht => absurd (stepWith_cases ht).1 (by simp [h])

theorem runLoop_succ (cfg : Config) (n : Nat) {s t : State} (h : stepWith cfg s = .next t) :
    runLoop cfg (n + 1) s = runLoop cfg n t := by
  simp [runLoop, h]

/-- A run may be cut anywhere, also behind its end. -/
theorem runLoop_add (cfg : Config) (m n : Nat) (s : State) :
    runLoop cfg (m + n) s = runLoop cfg n (runLoop cfg m s) := by
  induction m generalizing s with
  | zero => simp [runLoop]
  | succ m ih =>
    by_cases h : ∃ t, stepWith cfg s = .next t
    · obtain ⟨t, ht⟩ := h
      rw [Nat.succ_add, runLoop_succ cfg _ ht, runLoop_succ cfg _ ht, ih]
    · have hs : ∀ t, stepWith cfg s ≠ .next t := fun t ht => h ⟨t, ht⟩
      simp only [runLoop_stuck cfg _ hs]

end Sys2Proof.Laws
end

