-- ==== Sys2Proof/Tests/Slice0.lean ====
section
/-! SUPPORT. The model's own tests: decoding of words written out from the spec, single-step vectors of 95_test_vectors.md (each
names its vector), and for every statement with hypotheses a concrete input that meets them. -/

namespace Sys2Proof.Tests

open Sys2Proof.Machine

/-- Whether an outcome is a next state that passes a check. -/
def nextIs (o : Host.Outcome State Fault Refusal) (p : State → Bool) : Bool :=
  match o with
  | .next t => p t
  | .fault _ => false
  | .refused _ => false

/-- Whether an outcome is the given refusal. -/
def refusedIs (o : Host.Outcome State Fault Refusal) (r : Refusal) : Bool :=
  match o with
  | .next _ => false
  | .fault _ => false
  | .refused q => decide (q = r)

/-- A Ready engine with code at pc. -/
def startAt (pc : Nat) (code : List Byte) (regs : Vector Byte 8) (fl : Byte) (data : Memory) : State where
  regs := regs
  pc := pc
  fl := fl
  mem := Memory.putBytes data pc code
  runState := .ready
  out := []

/-- Registers R0, R1 as given, the rest 0, SP = 0xF4 (the conventions of 95_test_vectors.md). -/
def r01 (a b : Byte) : Vector Byte 8 := #v[a, b, 0#8, 0#8, 0#8, 0#8, 0#8, 0xF4#8]

/-- R0, R2 and SP as given, the rest 0. -/
def r02sp (a c sp : Byte) : Vector Byte 8 := #v[a, 0#8, c, 0#8, 0#8, 0#8, 0#8, sp]

/-! ### The well-formedness check (R56): one ill-formed term for each operand it looks at -/

theorem test_wellFormed_accepts_r7 : (Instr.add 7#8 0#8).wellFormed = true := by decide
theorem test_wellFormed_refuses_first_operand : (Instr.push 8#8).wellFormed = false := by decide
theorem test_wellFormed_refuses_second_operand : (Instr.add 0#8 8#8).wellFormed = false := by decide
theorem test_wellFormed_ignores_immediate : (Instr.ldi 0#8 255#8).wellFormed = true := by decide

/-! ### Decoding: each word written out bit by bit from R54 and R55, least significant byte first in memory -/

theorem test_decode_ldi : decodeTableWord 24 0b00001000_00000111_10000010 = some (.ldi 7#8 8#8) := by decide
theorem test_decode_mul : decodeTableWord 24 0b00000001_00000000_10100010 = some (.mul 0#8 1#8) := by decide
theorem test_decode_prn : decodeTableWord 16 0b00000011_01000111 = some (.prn 3#8) := by decide
theorem test_decode_push : decodeTableWord 16 0b00000111_01000101 = some (.push 7#8) := by decide
theorem test_decode_pop : decodeTableWord 16 0b00000001_01000110 = some (.pop 1#8) := by decide
theorem test_decode_call : decodeTableWord 16 0b00000010_01010000 = some (.call 2#8) := by decide
theorem test_decode_ret : decodeTableWord 8 0b00010001 = some .ret := by decide
theorem test_decode_add : decodeTableWord 24 0b11111111_00000110_10100000 = some (.add 6#8 255#8) := by decide
theorem test_decode_cmp : decodeTableWord 24 0b00000100_00000101_10100111 = some (.cmp 5#8 4#8) := by decide
theorem test_decode_jmp : decodeTableWord 16 0b00001000_01010100 = some (.jmp 8#8) := by decide
theorem test_decode_jeq : decodeTableWord 16 0b00000001_01010101 = some (.jeq 1#8) := by decide
theorem test_decode_jne : decodeTableWord 16 0b00000001_01010110 = some (.jne 1#8) := by decide
theorem test_decode_and : decodeTableWord 24 0b00000010_00000001_10101000 = some (.and 1#8 2#8) := by decide
theorem test_decode_or : decodeTableWord 24 0b00000010_00000001_10101010 = some (.or 1#8 2#8) := by decide
theorem test_decode_xor : decodeTableWord 24 0b00000010_00000001_10101011 = some (.xor 1#8 2#8) := by decide
theorem test_decode_shl : decodeTableWord 24 0b00000010_00000001_10101100 = some (.shl 1#8 2#8) := by decide
theorem test_decode_shr : decodeTableWord 24 0b00000010_00000001_10101101 = some (.shr 1#8 2#8) := by decide
theorem test_decode_mod : decodeTableWord 24 0b00000010_00000001_10100100 = some (.mod 1#8 2#8) := by decide
theorem test_decode_not : decodeTableWord 16 0b10000001_01101001 = some (.not 129#8) := by decide
theorem test_decode_hlt : decodeTableWord 8 0b00000001 = some .hlt := by decide
theorem test_decode_refuses_zero : decodeTableWord 8 0x00 = none := by decide
theorem test_decode_refuses_neighbour : decodeTableWord 24 0x080083 = none := by decide

/-! ### Single steps -/

/-- Vector ADD (0xFF, 0x01). -/
theorem test_add_wraps :
    nextIs (step (startAt 0 [0xA0#8, 0#8, 1#8] (r01 0xFF#8 0x01#8) 4#8 []))
      (fun t => t.regs == r01 0x00#8 0x01#8 && t.pc == 3 && t.fl == 4#8) = true := by decide
/-- Vector ADD (0xC8, 0x64). -/
theorem test_add_sum :
    nextIs (step (startAt 0 [0xA0#8, 0#8, 1#8] (r01 0xC8#8 0x64#8) 4#8 []))
      (fun t => t.regs == r01 0x2C#8 0x64#8 && t.pc == 3 && t.fl == 4#8) = true := by decide
/-- Vector MUL (0xFF, 0xFF). -/
theorem test_mul_low_byte :
    nextIs (step (startAt 0 [0xA2#8, 0#8, 1#8] (r01 0xFF#8 0xFF#8) 4#8 []))
      (fun t => t.regs == r01 0x01#8 0xFF#8 && t.pc == 3 && t.fl == 4#8) = true := by decide
/-- Vector MUL (0x08, 0x09). -/
theorem test_mul_product :
    nextIs (step (startAt 0 [0xA2#8, 0#8, 1#8] (r01 0x08#8 0x09#8) 4#8 []))
      (fun t => t.regs == r01 0x48#8 0x09#8 && t.pc == 3 && t.fl == 4#8) = true := by decide
/-- Vector AND (0xF0, 0x3C). -/
theorem test_and_not_self_and :
    nextIs (step (startAt 0 [0xA8#8, 0#8, 1#8] (r01 0xF0#8 0x3C#8) 4#8 []))
      (fun t => t.regs == r01 0x30#8 0x3C#8 && t.pc == 3 && t.fl == 4#8) = true := by decide
/-- Vector OR (0xAA, 0x55). -/
theorem test_or_bits :
    nextIs (step (startAt 0 [0xAA#8, 0#8, 1#8] (r01 0xAA#8 0x55#8) 4#8 []))
      (fun t => t.regs == r01 0xFF#8 0x55#8 && t.pc == 3 && t.fl == 4#8) = true := by decide
/-- Vector XOR (0xF0, 0x3C). -/
theorem test_xor_bits :
    nextIs (step (startAt 0 [0xAB#8, 0#8, 1#8] (r01 0xF0#8 0x3C#8) 4#8 []))
      (fun t => t.regs == r01 0xCC#8 0x3C#8 && t.pc == 3 && t.fl == 4#8) = true := by decide
/-- Vector SHL (0x01, 0x08). -/
theorem test_shl_by_8 :
    nextIs (step (startAt 0 [0xAC#8, 0#8, 1#8] (r01 0x01#8 0x08#8) 4#8 []))
      (fun t => t.regs == r01 0x00#8 0x08#8 && t.pc == 3 && t.fl == 4#8) = true := by decide
/-- Vector SHL (0xC3, 0x02). -/
theorem test_shl_drops_bits :
    nextIs (step (startAt 0 [0xAC#8, 0#8, 1#8] (r01 0xC3#8 0x02#8) 4#8 []))
      (fun t => t.regs == r01 0x0C#8 0x02#8 && t.pc == 3 && t.fl == 4#8) = true := by decide
/-- Vector SHR (0x80, 0x01). -/
theorem test_shr_is_logical :
    nextIs (step (startAt 0 [0xAD#8, 0#8, 1#8] (r01 0x80#8 0x01#8) 4#8 []))
      (fun t => t.regs == r01 0x40#8 0x01#8 && t.pc == 3 && t.fl == 4#8) = true := by decide
/-- Vector SHR (0xFF, 0xFF). -/
theorem test_shr_by_255 :
    nextIs (step (startAt 0 [0xAD#8, 0#8, 1#8] (r01 0xFF#8 0xFF#8) 4#8 []))
      (fun t => t.regs == r01 0x00#8 0xFF#8 && t.pc == 3 && t.fl == 4#8) = true := by decide
/-- Vector MOD (0x80, 0x7F). -/
theorem test_mod_remainder :
    nextIs (step (startAt 0 [0xA4#8, 0#8, 1#8] (r01 0x80#8 0x7F#8) 4#8 []))
      (fun t => t.regs == r01 0x01#8 0x7F#8 && t.pc == 3 && t.fl == 4#8) = true := by decide
/-- Vector MOD (0x07, 0x00). -/
theorem test_mod_by_zero :
    nextIs (step (startAt 0 [0xA4#8, 0#8, 1#8] (r01 0x07#8 0x00#8) 4#8 []))
      (fun t => t.runState == .faulted .divisionByZero && t.regs == r01 0x07#8 0x00#8 && t.pc == 0) = true := by decide
/-- Vector L4. -/
theorem test_ldi_sets_sp :
    nextIs (step (startAt 0 [0x82#8, 7#8, 0x80#8] (r01 0#8 0#8) 0#8 []))
      (fun t => t.regs[7] == 0x80#8 && t.pc == 3) = true := by decide
/-- Vector D6. -/
theorem test_ldi_at_253 :
    nextIs (step (startAt 253 [0x82#8, 1#8, 0x77#8] (r01 0#8 0#8) 0#8 []))
      (fun t => t.regs[1] == 0x77#8 && t.pc == 256 && t.runState == .running) = true := by decide
/-- Vector NOT AA. -/
theorem test_not_complements :
    nextIs (step (startAt 0 [0x69#8, 0#8] (r01 0xAA#8 0#8) 2#8 []))
      (fun t => t.regs[0] == 0x55#8 && t.pc == 2 && t.fl == 2#8) = true := by decide
/-- Vector NOT 69 09. -/
theorem test_not_index_above_7 :
    nextIs (step (startAt 0 [0x69#8, 9#8] (r01 0#8 0#8) 0#8 []))
      (fun t => t.runState == .faulted (.invalidRegister 9#8) && t.pc == 0) = true := by decide
/-- Vector CMP (80, 7F). -/
theorem test_cmp_is_unsigned :
    nextIs (step (startAt 0 [0xA7#8, 0#8, 1#8] (r01 0x80#8 0x7F#8) 4#8 []))
      (fun t => t.fl == 2#8 && t.pc == 3) = true := by decide
/-- Vector CMP (05, 05) with FL = 04. -/
theorem test_cmp_replaces_fl :
    nextIs (step (startAt 0 [0xA7#8, 0#8, 1#8] (r01 5#8 5#8) 4#8 []))
      (fun t => t.fl == 1#8) = true := by decide
/-- Vector S3. -/
theorem test_push_wraps :
    nextIs (step (startAt 0 [0x45#8, 0#8] (r02sp 0xAB#8 0#8 0#8) 0#8 []))
      (fun t => t.regs[7] == 0xFF#8 && t.mem.byte 255 == 0xAB#8 && t.pc == 2) = true := by decide
/-- Vector S5. -/
theorem test_push_sp :
    nextIs (step (startAt 0 [0x45#8, 7#8] (r02sp 0#8 0#8 0x80#8) 0#8 []))
      (fun t => t.regs[7] == 0x7F#8 && t.mem.byte 0x7F == 0x7F#8) = true := by decide
/-- Vector S4. -/
theorem test_pop_wraps :
    nextIs (step (startAt 0 [0x46#8, 0#8] (r02sp 0#8 0#8 0xFF#8) 0#8 [(0xFF, 0x5A#8)]))
      (fun t => t.regs == r02sp 0x5A#8 0#8 0#8 && t.pc == 2) = true := by decide
/-- Vector S6. -/
theorem test_pop_sp :
    nextIs (step (startAt 0 [0x46#8, 7#8] (r02sp 0#8 0#8 0x80#8) 0#8 [(0x80, 0x33#8)]))
      (fun t => t.regs[7] == 0x34#8) = true := by decide
/-- Vector J1. -/
theorem test_jmp_sets_pc :
    nextIs (step (startAt 5 [0x54#8, 0#8] (r02sp 0x20#8 0#8 0xF4#8) 0#8 []))
      (fun t => t.pc == 0x20) = true := by decide
/-- Vector J4. -/
theorem test_jeq_taken :
    nextIs (step (startAt 0x11 [0x55#8, 2#8] (r02sp 0#8 0x19#8 0xF4#8) 1#8 []))
      (fun t => t.pc == 0x19) = true := by decide
/-- Vector J10. -/
theorem test_jeq_not_taken_unchecked :
    nextIs (step (startAt 0 [0x55#8, 9#8] (r01 0#8 0#8) 0#8 []))
      (fun t => t.pc == 2 && t.runState == .running) = true := by decide
/-- Vector J7. -/
theorem test_jne_not_taken :
    nextIs (step (startAt 0x0F [0x56#8, 3#8] (r02sp 0#8 0#8 0xF4#8) 1#8 []))
      (fun t => t.pc == 0x11) = true := by decide
/-- Vector J13. -/
theorem test_jne_taken_index_above_7 :
    nextIs (step (startAt 0 [0x56#8, 9#8] (r01 0#8 0#8) 4#8 []))
      (fun t => t.runState == .faulted (.invalidRegister 9#8) && t.pc == 0) = true := by decide
/-- Vector K7. -/
theorem test_call_at_253 :
    nextIs (step (startAt 0xFD [0x50#8, 0#8] (r02sp 0x10#8 0#8 0xF4#8) 0#8 []))
      (fun t => t.regs[7] == 0xF3#8 && t.mem.byte 0xF3 == 0xFF#8 && t.pc == 0x10) = true := by decide
/-- Vector K3. -/
theorem test_call_sp :
    nextIs (step (startAt 0 [0x50#8, 7#8] (r02sp 0#8 0#8 0x80#8) 0#8 []))
      (fun t => t.regs[7] == 0x7F#8 && t.mem.byte 0x7F == 2#8 && t.pc == 0x7F) = true := by decide
/-- Vector K6. -/
theorem test_ret_wraps :
    nextIs (step (startAt 0 [0x11#8] (r02sp 0#8 0#8 0xFF#8) 0#8 [(0xFF, 0x44#8)]))
      (fun t => t.pc == 0x44 && t.regs[7] == 0#8) = true := by decide
/-- Vector Y4. -/
theorem test_prn_sp :
    nextIs (step (startAt 0 [0x47#8, 7#8] (r01 0#8 0#8) 0#8 []))
      (fun t => t.out == [244#8] && t.pc == 2) = true := by decide
/-- Vector Y7. -/
theorem test_hlt_at_253 :
    nextIs (step (startAt 253 [0x01#8] (r01 0#8 0#8) 0#8 []))
      (fun t => t.runState == .halted && t.pc == 253) = true := by decide
/-- Vector Y8. -/
theorem test_hlt_at_254_faults :
    nextIs (step (startAt 254 [0x01#8] (r01 0#8 0#8) 0#8 []))
      (fun t => t.runState == .faulted (.outOfBounds 256) && t.pc == 254) = true := by decide
/-- Vector D10. -/
theorem test_unknown_byte_at_254 :
    nextIs (step (startAt 254 [0x00#8] (r01 0#8 0#8) 0#8 []))
      (fun t => t.runState == .faulted (.outOfBounds 256)) = true := by decide
/-- Vector D5. -/
theorem test_sub_byte_of_ls8_is_unknown :
    nextIs (step (startAt 0 [0xA1#8, 0#8, 1#8] (r01 0#8 0#8) 0#8 []))
      (fun t => t.runState == .faulted (.unknownOpcode 0 0xA1#8)) = true := by decide
/-- Vector A3. -/
theorem test_a_checked_before_b :
    nextIs (step (startAt 0 [0xA0#8, 10#8, 11#8] (r01 0#8 0#8) 0#8 []))
      (fun t => t.runState == .faulted (.invalidRegister 10#8)) = true := by decide
/-- A table word placed at reset is the first instruction to run. -/
theorem test_table_word_runs_first :
    nextIs (step (State.reset.withFetchWord 24 0x080082))
      (fun t => t.regs[0] == 8#8 && t.pc == 3) = true := by decide

/-! ### Host operations -/

/-- Vector H6: a second Load writes only the cells it covers. -/
theorem test_load_twice :
    nextIs (load [1#8, 2#8, 3#8] State.reset)
      (fun t => nextIs (load [0x82#8] t) (fun u => u.mem == [(0, 0x82#8), (1, 2#8), (2, 3#8)])) = true := by decide
/-- Vector H3: 257 bytes. -/
theorem test_load_too_large : load (List.replicate 257 1#8) State.reset = .refused .programTooLarge := by
  rw [load, if_pos (show State.reset.runState = .ready from rfl), if_pos (by rw [List.length_replicate]; decide)]
/-- Vector H1: a step of a halted engine. -/
theorem test_step_halted : refusedIs (step { State.reset with runState := .halted }) .invalidState = true := by decide
/-- Vector H8: Run starts from Ready, and P1 prints 8 and halts. -/
theorem test_run_prints_8 :
    nextIs (load [0x82#8, 0#8, 8#8, 0x47#8, 0#8, 1#8] State.reset)
      (fun t => nextIs (runFor Config.defaults 3 t)
        (fun u => u.runState == .halted && u.pc == 5 && outputLines u == [['8']])) = true := by decide
/-- Vector Y2: the text of 255. -/
theorem test_text_255 : decimalText 255#8 = ['2', '5', '5'] := by decide
/-- R158, R170: the report of a fault at pc = 254 has the two bytes that exist. -/
theorem test_fault_report :
    faultReport { State.reset with pc := 254, runState := .faulted (.outOfBounds 256), mem := [(254, 1#8)] } =
      some (.outOfBounds 256, 254, [1#8, 0#8]) := by decide
/-- R97: a name that is no operation of the ALU. -/
theorem test_alu_unsupported_name :
    nextIs (commit State.reset (aluByName "SUB" 0#8 1#8 State.reset))
      (fun t => t.runState == .faulted (.unsupportedOperation "SUB")) = true := by decide
/-- The byte that nothing has written, and a write of it, leave no entry. -/
theorem test_write_of_zero_removes : Memory.put [(3, 7#8), (9, 1#8)] 3 0#8 = [(9, 1#8)] := by decide

/-! ### Witnesses: for each statement, inputs that meet its hypotheses, clause by clause -/

/-- A Running engine with code at pc: R0 = 7, R1 = 0, R2..R5 small, R6 = 255, SP = 0x80, Equal set. -/
def live (pc : Nat) (code : List Byte) : State :=
  { startAt pc code #v[7#8, 0#8, 2#8, 3#8, 4#8, 5#8, 255#8, 0x80#8] 1#8 [] with runState := .running }

/-- The hypotheses of `NeverRunsAtTop` at both of its addresses. -/
def topMet (opcode : Byte) : Bool :=
  (live 254 [opcode]).runState.canStep && (live 254 [opcode]).mem.byte 254 == opcode && (live 254 [opcode]).pc == 254 &&
  (live 255 [opcode]).runState.canStep && (live 255 [opcode]).mem.byte 255 == opcode && (live 255 [opcode]).pc == 255

/-- The hypothesis of `EncodedAs`: the encoding and two more bytes are three bytes and a rest. -/
def bytesMet (i : Instr) : Prop :=
  ∃ ir opA opB tail, encode Config.defaults i ++ [0#8, 8#8] = ir :: opA :: opB :: tail

theorem witness_LoadImmediateWritesRegister :
    bytesMet (.ldi 7#8 0#8) ∧ topMet 0x82#8 = true ∧ (7#8 : Byte).toNat < 8 ∧ 8 ≤ (8#8 : Byte).toNat ∧
    (live 253 [0x82#8, 7#8, 9#8]).runState.canStep = true ∧
    (live 253 [0x82#8, 7#8, 9#8]).Decodes Config.defaults (.ldi 7#8 9#8) ∧ (live 253 [0x82#8, 7#8, 9#8]).pc = 253 :=
  ⟨⟨_, _, _, _, rfl⟩, by decide, by decide, by decide, rfl, ⟨by decide, rfl⟩, rfl⟩
theorem witness_AddWritesSumModulo256 :
    bytesMet (.add 7#8 0#8) ∧ topMet (0xA0#8) = true ∧ (7#8 : Byte).toNat < 8 ∧ (0#8 : Byte).toNat < 8 ∧ 8 ≤ (8#8 : Byte).toNat ∧ 8 ≤ (255#8 : Byte).toNat :=
  ⟨⟨_, _, _, _, rfl⟩, by decide, by decide⟩
theorem witness_MulWritesLowByteOfProduct :
    bytesMet (.mul 7#8 0#8) ∧ topMet (0xA2#8) = true ∧ (7#8 : Byte).toNat < 8 ∧ (0#8 : Byte).toNat < 8 ∧ 8 ≤ (8#8 : Byte).toNat ∧ 8 ≤ (255#8 : Byte).toNat :=
  ⟨⟨_, _, _, _, rfl⟩, by decide, by decide⟩
theorem witness_AndWritesConjunctionOfBoth :
    bytesMet (.and 7#8 0#8) ∧ topMet (Config.defaults.opcAnd) = true ∧ (7#8 : Byte).toNat < 8 ∧ (0#8 : Byte).toNat < 8 ∧ 8 ≤ (8#8 : Byte).toNat ∧ 8 ≤ (255#8 : Byte).toNat :=
  ⟨⟨_, _, _, _, rfl⟩, by decide, by decide⟩
theorem witness_OrWritesDisjunction :
    bytesMet (.or 7#8 0#8) ∧ topMet (Config.defaults.opcOr) = true ∧ (7#8 : Byte).toNat < 8 ∧ (0#8 : Byte).toNat < 8 ∧ 8 ≤ (8#8 : Byte).toNat ∧ 8 ≤ (255#8 : Byte).toNat :=
  ⟨⟨_, _, _, _, rfl⟩, by decide, by decide⟩
theorem witness_XorWritesExclusiveOr :
    bytesMet (.xor 7#8 0#8) ∧ topMet (Config.defaults.opcXor) = true ∧ (7#8 : Byte).toNat < 8 ∧ (0#8 : Byte).toNat < 8 ∧ 8 ≤ (8#8 : Byte).toNat ∧ 8 ≤ (255#8 : Byte).toNat :=
  ⟨⟨_, _, _, _, rfl⟩, by decide, by decide⟩
theorem witness_NotWritesComplement :
    bytesMet (.not 7#8) ∧ topMet 0x69#8 = true ∧ (7#8 : Byte).toNat < 8 ∧ (0#8 : Byte).toNat < 8 ∧ 8 ≤ (8#8 : Byte).toNat ∧ 8 ≤ (255#8 : Byte).toNat :=
  ⟨⟨_, _, _, _, rfl⟩, by decide, by decide⟩
theorem witness_ShiftLeftUsesWholeAmount :
    bytesMet (.shl 7#8 6#8) ∧ topMet (Config.defaults.opcShl) = true ∧ (7#8 : Byte).toNat < 8 ∧ (0#8 : Byte).toNat < 8 ∧ 8 ≤ (8#8 : Byte).toNat ∧ 8 ≤ (255#8 : Byte).toNat ∧
    8 ≤ (live 0 []).regs[(6#8 : Byte).toNat].toNat :=
  ⟨⟨_, _, _, _, rfl⟩, by decide, by decide⟩
theorem witness_ShiftRightIsLogical :
    bytesMet (.shr 7#8 6#8) ∧ topMet (Config.defaults.opcShr) = true ∧ (7#8 : Byte).toNat < 8 ∧ (0#8 : Byte).toNat < 8 ∧ 8 ≤ (8#8 : Byte).toNat ∧ 8 ≤ (255#8 : Byte).toNat ∧
    8 ≤ (live 0 []).regs[(6#8 : Byte).toNat].toNat :=
  ⟨⟨_, _, _, _, rfl⟩, by decide, by decide⟩
theorem witness_ModuloWritesRemainderOrFaults :
    bytesMet (.mod 7#8 2#8) ∧ topMet Config.defaults.opcMod = true ∧ (7#8 : Byte).toNat < 8 ∧ (0#8 : Byte).toNat < 8 ∧ 8 ≤ (8#8 : Byte).toNat ∧ 8 ≤ (255#8 : Byte).toNat ∧
    (live 0 []).regs[(2#8 : Byte).toNat] ≠ 0#8 ∧ (live 0 []).regs[(1#8 : Byte).toNat] = 0#8 :=
  ⟨⟨_, _, _, _, rfl⟩, by decide, by decide⟩
theorem witness_CompareWritesOnlyFlags :
    bytesMet (.cmp 7#8 2#8) ∧ topMet 0xA7#8 = true ∧ (7#8 : Byte).toNat < 8 ∧ (0#8 : Byte).toNat < 8 ∧ 8 ≤ (8#8 : Byte).toNat ∧ 8 ≤ (255#8 : Byte).toNat ∧
    (live 0 []).regs[(7#8 : Byte).toNat].toNat = (live 0 []).regs[(7#8 : Byte).toNat].toNat ∧
    (live 0 []).regs[(2#8 : Byte).toNat].toNat < (live 0 []).regs[(3#8 : Byte).toNat].toNat :=
  ⟨⟨_, _, _, _, rfl⟩, by decide, by decide⟩
theorem witness_PushStoresBelowStackPointer :
    bytesMet (.push 7#8) ∧ topMet 0x45#8 = true ∧ (7#8 : Byte).toNat < 8 ∧ (0#8 : Byte).toNat < 8 ∧ 8 ≤ (8#8 : Byte).toNat ∧ 8 ≤ (255#8 : Byte).toNat ∧
    (7#8 : Byte).toNat = 7 ∧ (0#8 : Byte).toNat ≠ 7 ∧ Memory.wf (live 0 [0x45#8, 7#8]).mem :=
  ⟨⟨_, _, _, _, rfl⟩, by decide, by decide⟩
theorem witness_PopLoadsThenIncrements :
    bytesMet (.pop 7#8) ∧ topMet 0x46#8 = true ∧ (7#8 : Byte).toNat < 8 ∧ (0#8 : Byte).toNat < 8 ∧ 8 ≤ (8#8 : Byte).toNat ∧ 8 ≤ (255#8 : Byte).toNat ∧ (7#8 : Byte).toNat = 7 ∧ (6#8 : Byte).toNat ≠ 7 :=
  ⟨⟨_, _, _, _, rfl⟩, by decide, by decide⟩
theorem witness_JumpSetsProgramCounter :
    bytesMet (.jmp 7#8) ∧ topMet 0x54#8 = true ∧ (7#8 : Byte).toNat < 8 ∧ (0#8 : Byte).toNat < 8 ∧ 8 ≤ (8#8 : Byte).toNat ∧ 8 ≤ (255#8 : Byte).toNat ∧ (live 7 [0x54#8, 0#8]).runState.canStep = true ∧
    (live 7 [0x54#8, 0#8]).Decodes Config.defaults (.jmp 0#8) ∧
    (live 7 [0x54#8, 0#8]).regs[(0#8 : Byte).toNat].toNat = (live 7 [0x54#8, 0#8]).pc :=
  ⟨⟨_, _, _, _, rfl⟩, by decide, by decide, by decide, by decide, by decide, rfl, ⟨by decide, rfl⟩, rfl⟩
theorem witness_JumpIfEqualReadsOnlyEqual :
    bytesMet (.jeq 7#8) ∧ topMet 0x55#8 = true ∧ (7#8 : Byte).toNat < 8 ∧ (0#8 : Byte).toNat < 8 ∧ 8 ≤ (8#8 : Byte).toNat ∧ 8 ≤ (255#8 : Byte).toNat ∧
    (live 0 []).flagE = true ∧ State.reset.flagE = false :=
  ⟨⟨_, _, _, _, rfl⟩, by decide, by decide⟩
theorem witness_JumpIfNotEqualReadsOnlyEqual :
    bytesMet (.jne 7#8) ∧ topMet 0x56#8 = true ∧ (7#8 : Byte).toNat < 8 ∧ (0#8 : Byte).toNat < 8 ∧ 8 ≤ (8#8 : Byte).toNat ∧ 8 ≤ (255#8 : Byte).toNat ∧
    (live 0 []).flagE = true ∧ State.reset.flagE = false :=
  ⟨⟨_, _, _, _, rfl⟩, by decide, by decide⟩
theorem witness_CallPushesReturnAddress :
    bytesMet (.call 7#8) ∧ topMet 0x50#8 = true ∧ (7#8 : Byte).toNat < 8 ∧ (0#8 : Byte).toNat < 8 ∧ 8 ≤ (8#8 : Byte).toNat ∧ 8 ≤ (255#8 : Byte).toNat ∧
    (7#8 : Byte).toNat = 7 ∧ (0#8 : Byte).toNat ≠ 7 ∧ (live 253 [0x50#8, 7#8]).pc ≤ 253 ∧
    Memory.wf (live 253 [0x50#8, 7#8]).mem :=
  ⟨⟨_, _, _, _, rfl⟩, by decide, by decide⟩
theorem witness_ReturnPopsProgramCounter :
    bytesMet .ret ∧ topMet 0x11#8 = true :=
  ⟨⟨_, _, _, _, rfl⟩, by decide⟩
theorem witness_PrintEmitsRegister :
    bytesMet (.prn 7#8) ∧ topMet 0x47#8 = true ∧ (7#8 : Byte).toNat < 8 ∧ (0#8 : Byte).toNat < 8 ∧ 8 ≤ (8#8 : Byte).toNat ∧ 8 ≤ (255#8 : Byte).toNat :=
  ⟨⟨_, _, _, _, rfl⟩, by decide, by decide⟩
theorem witness_HaltEndsTheRun :
    bytesMet .hlt ∧ topMet 0x01#8 = true ∧ (live 253 [0x01#8]).runState.canStep = true ∧
    (live 253 [0x01#8]).Decodes Config.defaults .hlt :=
  ⟨⟨_, _, _, _, rfl⟩, by decide, rfl, ⟨by decide, rfl⟩⟩
theorem witness_StepRunsDecodedInstruction :
    State.reset.runState.canStep = true ∧
    (live 253 [0xA4#8, 1#8, 9#8]).runState.canStep = true ∧ (live 253 [0xA4#8, 1#8, 9#8]).Decodes Config.defaults (.mod 1#8 9#8) :=
  ⟨rfl, rfl, ⟨by decide, rfl⟩⟩
theorem witness_DecodeEncodeAgree :
    bytesMet .hlt ∧ bytesMet (.jeq 255#8) ∧ bytesMet (.xor 0#8 255#8) :=
  ⟨⟨_, _, _, _, rfl⟩, ⟨_, _, _, _, rfl⟩, ⟨_, _, _, _, rfl⟩⟩
theorem witness_EncodeDecodeAgree :
    decode Config.defaults 0x01#8 0xFF#8 0xFF#8 = .ok .hlt ∧ decode Config.defaults 0xA8#8 0#8 0xFF#8 = .ok (.and 0#8 255#8) :=
  ⟨rfl, rfl⟩
theorem witness_DecodeMatchesWholeByte :
    Opcode.byte Config.defaults .ldi = 0x82#8 ∧ ∀ o : Opcode, o.byte Config.defaults ≠ 0x83#8 :=
  ⟨rfl, by intro o; cases o <;> decide⟩
theorem witness_UnknownOpcodeFaults :
    (live 253 [0x83#8]).runState.canStep = true ∧ (live 253 [0x83#8]).mem.byte 253 = 0x83#8 ∧
    (live 254 [0x83#8]).mem.byte 254 = 0x83#8 ∧ (live 255 [0x83#8]).mem.byte 255 = 0x83#8 ∧
    ∀ o : Opcode, o.byte Config.defaults ≠ 0x83#8 :=
  ⟨rfl, by decide, by decide, by decide, by intro o; cases o <;> decide⟩
theorem witness_OutOfBoundsOnlyFromFetch :
    (live 253 []).runState.canStep = true ∧ (live 253 []).pc ≤ 253 ∧ (live 254 []).pc = 254 ∧ (live 255 []).pc = 255 ∧
    256 ≤ (live 256 []).pc ∧ 255 < 256 ∧
    nextIs (stepWith Config.defaults (live 253 [0x01#8])) (fun _ => true) = true ∧
    (live 0 []).runState = .running ∧ nextIs (exec .hlt (live 0 [])) (fun _ => true) = true :=
  by decide
theorem witness_MemoryReadIsBoundsChecked :
    255 ≤ 255 ∧ 255 < 256 :=
  by decide
theorem witness_MemoryWriteChangesOneCell :
    Memory.wf [(0, 1#8), (255, 2#8)] ∧ 255 ≤ 255 ∧ 254 ≠ 255 ∧ 255 < 256 :=
  by decide
theorem witness_RegisterWriteWrapsModulo256 :
    (7#8 : Byte).toNat < 8 ∧ (6#8 : Byte) ≠ 7#8 :=
  by decide
theorem witness_RegisterIndexIsNeverMasked :
    8 ≤ (8#8 : Byte).toNat ∧ 8 ≤ (255#8 : Byte).toNat ∧ (7#8 : Byte).toNat < 8 :=
  by decide
theorem witness_ResetStateIsAsTheTable :
    0 < 7 ∧ 6 < 7 ∧ 0 ≤ 255 ∧ 255 ≤ 255 :=
  by decide
theorem witness_StepKeepsInvariant :
    (live 253 [0x82#8, 1#8, 0x77#8]).Inv ∧ nextIs (step (live 253 [0x82#8, 1#8, 0x77#8])) (fun t => t.pc == 256) = true :=
  ⟨⟨by decide, by decide, by decide⟩, by decide⟩
theorem witness_LoadKeepsInvariant :
    State.reset.Inv ∧ nextIs (load (List.replicate 256 1#8) State.reset) (fun _ => true) = true :=
  ⟨⟨by decide, by decide, by decide⟩, by rw [load, if_pos (show State.reset.runState = .ready from rfl), if_neg (by rw [List.length_replicate]; decide)]; rfl⟩
theorem witness_EveryEndIsAccountedFor :
    (live 256 []).pc ≤ 256 ∧ nextIs (step (live 256 [])) (fun t => t.runState == .faulted (.outOfBounds 256)) = true ∧
    nextIs (step (live 0 [0xA4#8, 0#8, 1#8])) (fun t => t.runState == .faulted .divisionByZero) = true ∧
    nextIs (step (live 0 [0x01#8])) (fun t => t.runState == .halted) = true :=
  by decide
theorem witness_FaultingStepChangesRunStateOnly :
    nextIs (step (live 0 [0x45#8, 8#8])) (fun t => t.runState == .faulted (.invalidRegister 8#8)) = true ∧
    (live 0 []).runState = .running ∧
    nextIs (exec (.push 8#8) (live 0 [])) (fun t => t.runState == .faulted (.invalidRegister 8#8)) = true :=
  by decide
theorem witness_EveryLiveStateHasNextStep :
    State.reset.runState.canStep = true ∧ (live 300 []).runState.canStep = true :=
  by decide
theorem witness_RunStateTransitionsAreComplete :
    State.reset.runState = .ready ∧ (live 0 [1#8]).runState = .running ∧ (live 0 [1#8]).Decodes Config.defaults .hlt ∧
    ({ State.reset with runState := .halted } : State).runState = .halted ∧
    ({ State.reset with runState := .faulted .divisionByZero } : State).runState = .faulted .divisionByZero :=
  ⟨rfl, rfl, ⟨by decide, rfl⟩, rfl, rfl⟩
theorem witness_OutputGrowsOnlyByPrint :
    nextIs (step (live 0 [0x47#8, 7#8])) (fun t => t.out == [0x80#8]) = true ∧
    nextIs (step (live 0 [0x47#8, 8#8])) (fun t => t.out == []) = true :=
  by decide
theorem witness_MemoryChangesOnlyByPushAndCall :
    Memory.wf (live 0 [0x50#8, 0#8]).mem ∧ nextIs (step (live 0 [0x50#8, 0#8])) (fun t => t.mem.byte 0x7F == 2#8) = true ∧
    nextIs (step (live 0 [0x46#8, 0#8])) (fun _ => true) = true :=
  by decide
theorem witness_OnlyCompareWritesFlagsOnlyJumpsReadEqual :
    nextIs (exec (.jeq 0#8) (live 0 [])) (fun _ => true) = true ∧
    ({ live 0 [] with fl := 5#8 } : State).flagE = (live 0 []).flagE ∧
    nextIs (exec (.cmp 0#8 7#8) (live 0 [])) (fun _ => true) = true ∧ (0#8 : Byte).toNat < 8 ∧ (7#8 : Byte).toNat < 8 ∧
    nextIs (exec (.cmp 0#8 8#8) (live 0 [])) (fun _ => true) = true ∧ 8 ≤ (8#8 : Byte).toNat ∧
    (∀ a b, Instr.jeq 0#8 ≠ .cmp a b) ∧ (∀ a, Instr.ret ≠ .jeq a ∧ Instr.ret ≠ .jne a) :=
  ⟨by decide, by decide, by decide, by decide, by decide, by decide, by decide, by simp, by simp⟩
theorem witness_CompareSetsExactlyOneFlag :
    (0#8 : Byte).toNat < 8 ∧ (7#8 : Byte).toNat < 8 ∧
    nextIs (stepWith Config.defaults (live 0 [0x01#8])) (fun _ => true) = true ∧
    (live 0 [0x01#8]).Decodes Config.defaults .hlt ∧
    nextIs (stepWith Config.defaults (live 0 [0xA7#8, 8#8, 8#8])) (fun t => t.runState == .faulted (.invalidRegister 8#8)) = true :=
  ⟨by decide, by decide, by decide, ⟨by decide, rfl⟩, by decide⟩
theorem witness_SwappedCompareMirrorsFlag :
    (0#8 : Byte).toNat < 8 ∧ (7#8 : Byte).toNat < 8 :=
  by decide
theorem witness_PushPopIsStackNeutral :
    Memory.wf (live 0 [0x45#8, 7#8, 0x46#8]).mem ∧ (7#8 : Byte).toNat < 8 ∧ (0#8 : Byte).toNat < 8 ∧ 0 ≠ ((live 0 []).regs[7] - 1#8).toNat :=
  by decide
theorem witness_CallReturnRestoresStackPointer :
    Memory.wf (live 253 [0x50#8, 7#8]).mem ∧ (live 253 [0x50#8, 7#8]).pc ≤ 253 ∧ (7#8 : Byte).toNat < 8 ∧
    nextIs (exec (.call 7#8) (live 253 [0x50#8, 7#8]))
      (fun t => t.regs[7] == t.regs[7] && t.mem.byte t.regs[7].toNat == 255#8) = true :=
  by decide
theorem witness_RegistersChangeOnlyAsWritten :
    nextIs (exec (.pop 0#8) (live 0 [])) (fun _ => true) = true ∧ 6 < 8 ∧ 6 ∉ written (.pop 0#8) ∧
    nextIs (exec .hlt (live 0 [])) (fun _ => true) = true ∧ 7 ∉ written .hlt :=
  by decide
theorem witness_ProgramCounterAdvancesByLength :
    (live 0 []).runState = .running ∧ nextIs (exec (.add 0#8 7#8) (live 0 [])) (fun t => t.runState == .running) = true ∧
    redirects (.add 0#8 7#8) (live 0 []).flagE = false ∧
    nextIs (exec (.jeq 7#8) (live 0 [])) (fun t => t.runState == .running) = true ∧ redirects (.jeq 7#8) (live 0 []).flagE = true :=
  by decide
theorem witness_LoadWritesTheProgramOnly :
    State.reset.runState = .ready ∧ Memory.wf State.reset.mem ∧ [1#8, (2#8 : Byte)].length ≤ 256 ∧ 0 < [1#8, (2#8 : Byte)].length ∧
    [1#8, (2#8 : Byte)].length ≤ 2 ∧ 256 < (List.replicate 257 (1#8 : Byte)).length :=
  ⟨by decide, by decide, by decide, by decide, by decide, by rw [List.length_replicate]; decide⟩
theorem witness_EmptyEngineFaultsAtOnce :
    ∀ o : Opcode, o.byte Config.defaults ≠ 0#8 :=
  by intro o; cases o <;> decide
theorem witness_PushedByteIsSeenByNextFetch :
    Memory.wf (live 0x7E [0x45#8, 7#8]).mem ∧ (7#8 : Byte).toNat < 8 ∧ 253 ≤ 253 :=
  by decide
theorem witness_BoundedRunStepsUntilTerminal :
    State.reset.runState.canStep = true ∧ (live 0 [0x01#8]).Inv ∧ (live 0 [0x01#8]).runState.canStep = true ∧ 0 < 1 ∧
    nextIs (runFor Config.defaults 1 (live 0 [0x82#8, 0#8, 9#8, 0x01#8])) (fun t => t.runState.canStep) = true ∧
    nextIs (runFor Config.defaults 1 (live 0 [0x01#8])) (fun t => t.runState.canStep == false) = true ∧
    ({ State.reset with runState := .halted } : State).runState.canStep = false :=
  ⟨rfl, ⟨by decide, by decide, by decide⟩, by decide, by decide, by decide, by decide, rfl⟩
theorem witness_RunHasOneResult :
    ∃ t, RunReturns Config.defaults (live 0 [0x01#8]) t :=
  ⟨_, rfl, 1, rfl, rfl⟩
theorem witness_FaultPriorityIsTheStepOrder :
    8 ≤ (9#8 : Byte).toNat ∧ 8 ≤ (8#8 : Byte).toNat ∧ (1#8 : Byte).toNat < 8 ∧ (live 0 []).regs[(1#8 : Byte).toNat] = 0#8 ∧
    (live 254 []).runState.canStep = true ∧ 254 ≤ (live 254 []).pc ∧ (live 256 []).pc ≤ 256 :=
  by decide
theorem witness_UnsupportedOperationIsUnreachable :
    nextIs (stepWith Config.defaults (live 0 [0xA0#8, 0#8, 1#8])) (fun _ => true) = true ∧
    "SUB" ∉ ["ADD", "MUL", "AND", "OR", "XOR", "NOT", "SHL", "SHR", "MOD", "CMP"] ∧
    "CMP" ∈ ["ADD", "MUL", "AND", "OR", "XOR", "NOT", "SHL", "SHR", "MOD", "CMP"] :=
  by decide
theorem witness_DivisionByZeroOnlyFromMod :
    (live 0 []).runState = .running ∧ (1#8 : Byte).toNat < 8 ∧ (7#8 : Byte).toNat < 8 ∧ (live 0 []).regs[(1#8 : Byte).toNat] = 0#8 ∧
    nextIs (exec (.mod 7#8 1#8) (live 0 [])) (fun t => t.runState == .faulted .divisionByZero) = true :=
  by decide
theorem witness_InvalidRegisterNamesAnOperand :
    (live 0 []).runState = .running ∧
    nextIs (exec (.shl 7#8 8#8) (live 0 [])) (fun t => t.runState == .faulted (.invalidRegister 8#8)) = true :=
  by decide
theorem witness_StackAccessNeverFaults :
    ({ State.reset with regs := #v[0#8, 0#8, 0#8, 0#8, 0#8, 0#8, 0#8, 0#8] } : State).regs[7] = 0#8 ∧
    ({ State.reset with regs := #v[0#8, 0#8, 0#8, 0#8, 0#8, 0#8, 0#8, 255#8] } : State).regs[7] = 255#8 :=
  by decide

end Sys2Proof.Tests
end

section
/-! PROOFS. What a register write does to the register file and to the rest of the state (10_state.md R13). -/

namespace Sys2Proof.Proofs

open Sys2Proof.Machine Sys2Proof.Laws

variable {i : Byte} {v : Nat} {s t : State}

/-- A register reads back what was written, reduced modulo 256. -/
theorem readReg_writeReg_same (h : writeReg i v s = .ok t) (hi : i.toNat < 8) : readReg i t = .ok (wrap v) := by
  rw [writeReg_ok i v s hi] at h
  cases h
  simp [readReg_ok _ _ hi]

/-- Every other index byte reads, or fails, as before the write. -/
theorem readReg_writeReg_ne {j : Byte} (h : writeReg i v s = .ok t) (hi : i.toNat < 8) (hj : j ≠ i) :
    readReg j t = readReg j s := by
  rw [writeReg_ok i v s hi] at h
  cases h
  have hne : i.toNat ≠ j.toNat := fun e => hj (BitVec.eq_of_toNat_eq e.symm)
  by_cases hj8 : j.toNat < 8
  · simp [readReg_ok _ _ hj8, Vector.getElem_set_ne hi hj8 hne]
  · simp only [readReg_error _ _ (Nat.le_of_not_lt hj8)]

/-- The frame of a register write: only the register file changes. -/
theorem writeReg_frame (h : writeReg i v s = .ok t) (hi : i.toNat < 8) : t = { s with regs := t.regs } := by
  rw [writeReg_ok i v s hi] at h
  cases h
  rfl

/-- Settles O31: the write of a legal index is `writeReg_ok`, the rest its read-back, its neighbours and its frame. -/
theorem registerWriteWrapsModulo256 : Obligations.RegisterWriteWrapsModulo256 := by
  unfold Obligations.RegisterWriteWrapsModulo256
  intro i v s hi
  have hw := writeReg_ok i v s hi
  exact ⟨_, wrap v, hw, readReg_writeReg_same hw hi, BitVec.toNat_ofNat v 8,
    fun _ hj => readReg_writeReg_ne hw hi hj, writeReg_frame hw hi⟩

end Sys2Proof.Proofs
end

section
/-! PROOFS. FL is written by CMP and read by JEQ and JNE alone (10_state.md R17). The idea: a computation that neither reads nor
writes FL commutes with replacing FL, `f (setFl v s) = (f s).map (setFl v)`. The equation is proved for each shared operation,
composes along `bind`, and `commit` carries it to `exec`. That FL is kept is the case where `v` is the FL already there. -/

namespace Sys2Proof.Proofs

open Sys2Proof.Machine Sys2Proof.Laws

variable (v : Byte) (s : State)

/-! ### Composition -/

section
variable {v s}

/-- A value read without FL, then a continuation that commutes with replacing FL. -/
theorem read_bind_setFl {α : Type} (x : Except Fault α) {k k' : α → Except Fault State}
    (hk : ∀ y, k' y = (k y).map (setFl v)) : x >>= k' = (x >>= k).map (setFl v) := by
  cases x with
  | ok y => exact hk y
  | error f => rfl

/-- Two state computations in sequence, both commuting with replacing FL. -/
theorem bind_setFl {r r' : Except Fault State} {k : State → Except Fault State} (hr : r' = r.map (setFl v))
    (hk : ∀ t, k (setFl v t) = (k t).map (setFl v)) : r' >>= k = (r >>= k).map (setFl v) := by
  subst hr
  cases r with
  | ok t => exact hk t
  | error f => rfl

/-- A commit, or the fault it takes, commutes with replacing FL when its result does. -/
theorem commit_setFl {t : State} {r r' : Except Fault State} (hr : r' = r.map (setFl v)) (h : commit s r = .next t) :
    commit (setFl v s) r' = .next (setFl v t) := by
  subst hr
  obtain rfl | ⟨f, rfl, rfl⟩ := commit_cases h <;> rfl

end

/-! ### The shared operations -/

theorem writeReg_setFl (i : Byte) (n : Nat) : writeReg i n (setFl v s) = (writeReg i n s).map (setFl v) := by
  by_cases hi : i.toNat < 8
  · simp only [writeReg_ok _ _ _ hi]; rfl
  · simp only [writeReg_error _ _ _ (Nat.le_of_not_lt hi)]; rfl

theorem storeAtSp_setFl (w : Byte) : storeAtSp w (setFl v s) = (storeAtSp w s).map (setFl v) := by
  simp only [storeAtSp_eq]; rfl

theorem jumpVia_setFl (a : Byte) : jumpVia a (setFl v s) = (jumpVia a s).map (setFl v) :=
  read_bind_setFl (oneOperand a s) fun _ => rfl

theorem aluBinary_setFl (f : Byte → Byte → Except Fault Nat) (a b : Byte) :
    aluBinary f a b (setFl v s) = (aluBinary f a b s).map (setFl v) :=
  read_bind_setFl (twoOperands a b s) fun p => read_bind_setFl (f p.1 p.2) (writeReg_setFl v s a)

theorem aluNot_setFl (a : Byte) : aluNot a (setFl v s) = (aluNot a s).map (setFl v) :=
  read_bind_setFl (oneOperand a s) fun va => writeReg_setFl v s a (notValue va)

/-- Of the ten ALU operations only CMP does not commute with replacing FL. -/
theorem alu_setFl {op : AluOp} (h : op ≠ .cmp) (a b : Byte) : alu op a b (setFl v s) = (alu op a b s).map (setFl v) := by
  cases op with
  | cmp => exact absurd rfl h
  | not => exact aluNot_setFl v s a
  | add | mul | and | or | xor | shl | shr | mod =>
    simp only [alu]
    exact aluBinary_setFl v s _ a b

/-! ### CMP -/

/-- CMP of two legal indices overwrites the whole of FL from the registers. -/
theorem exec_cmp_ok (a b : Byte) (ha : a.toNat < 8) (hb : b.toNat < 8) :
    exec (.cmp a b) s = .next { s with fl := compareFlags s.regs[a.toNat] s.regs[b.toNat], pc := s.pc + 3 } := by
  simp only [exec, execCmp, alu, aluCmp_ok a b s ha hb]
  rfl

/-- A CMP that faults raises from the index bytes alone, so it too commutes with replacing FL. -/
theorem aluCmp_setFl_of_illegal (a b : Byte) (h : 8 ≤ a.toNat ∨ 8 ≤ b.toNat) :
    aluCmp a b (setFl v s) = (aluCmp a b s).map (setFl v) := by
  by_cases ha : a.toNat < 8
  · simp only [aluCmp_error_right a b _ ha (by omega)]; rfl
  · simp only [aluCmp_error_left a b _ (Nat.le_of_not_lt ha)]; rfl

/-! ### All instructions -/

section
variable {s}

/-- Every instruction but CMP commutes with replacing FL; JEQ and JNE where Equal stays the same. -/
theorem exec_setFl {i : Instr} {t : State} (h : exec i s = .next t) (hcmp : ∀ a b, i ≠ .cmp a b)
    (hE : (∀ a, i ≠ .jeq a ∧ i ≠ .jne a) ∨ (setFl v s).flagE = s.flagE) :
    exec i (setFl v s) = .next (setFl v t) := by
  cases i with
  | cmp a b => exact absurd rfl (hcmp a b)
  | jeq a =>
    have hE : (setFl v s).flagE = s.flagE := hE.resolve_left fun hn => (hn a).1 rfl
    refine commit_setFl ?_ h
    rw [hE]
    cases s.flagE with
    | true => exact jumpVia_setFl v s a
    | false => rfl
  | jne a =>
    have hE : (setFl v s).flagE = s.flagE := hE.resolve_left fun hn => (hn a).2 rfl
    refine commit_setFl ?_ h
    rw [hE]
    cases s.flagE with
    | true => rfl
    | false => exact jumpVia_setFl v s a
  | ldi a imm => exact commit_setFl (bind_setFl (writeReg_setFl v s a _) fun _ => rfl) h
  | add a b | mul a b | and a b | or a b | xor a b | shl a b | shr a b | mod a b =>
    exact commit_setFl (bind_setFl (alu_setFl v s (by decide) a b) fun _ => rfl) h
  | not a => exact commit_setFl (bind_setFl (alu_setFl v s (by decide) a a) fun _ => rfl) h
  | prn a => exact commit_setFl (read_bind_setFl (oneOperand a s) fun _ => rfl) h
  | push a =>
    exact commit_setFl (read_bind_setFl (oneOperand a (decSp s)) fun w =>
      bind_setFl (storeAtSp_setFl v (decSp s) w) fun _ => rfl) h
  | pop a =>
    exact commit_setFl (read_bind_setFl (loadAtSp s) fun w => bind_setFl (writeReg_setFl v s a w.toNat) fun _ => rfl) h
  | jmp a => exact commit_setFl (jumpVia_setFl v s a) h
  | call a => exact commit_setFl (bind_setFl (storeAtSp_setFl v (decSp s) _) fun t => jumpVia_setFl v t a) h
  | ret => exact commit_setFl (read_bind_setFl (loadAtSp s) fun _ => rfl) h
  | hlt => exact commit_setFl (s := s) (r := .ok { s with runState := .halted }) rfl h

/-- Every instruction but CMP keeps FL: replacing FL by itself changes nothing, before or after. -/
theorem exec_fl_of_ne_cmp {i : Instr} {t : State} (h : exec i s = .next t) (hcmp : ∀ a b, i ≠ .cmp a b) : t.fl = s.fl := by
  have hs : exec i s = .next (setFl s.fl t) := exec_setFl s.fl h hcmp (.inr rfl)
  have ht : t = setFl s.fl t := by simpa using h.symm.trans hs
  calc t.fl = (setFl s.fl t).fl := congrArg State.fl ht
    _ = s.fl := setFl_fl t s.fl

end

/-- Settles O43: all instructions but CMP commute with replacing FL, and CMP overwrites FL or faults on its index bytes. -/
theorem onlyCompareWritesFlagsOnlyJumpsReadEqual : Obligations.OnlyCompareWritesFlagsOnlyJumpsReadEqual := by
  unfold Obligations.OnlyCompareWritesFlagsOnlyJumpsReadEqual
  refine ⟨fun i s t h hcmp => exec_fl_of_ne_cmp h hcmp, fun i s t v h hcmp hE => exec_setFl v h hcmp hE,
    fun a b s t v h => ⟨fun ha hb => ?_, fun hab => ?_⟩⟩
  · rw [exec_cmp_ok s a b ha hb] at h
    exact (exec_cmp_ok _ a b ha hb).trans h
  · exact commit_setFl (bind_setFl (aluCmp_setFl_of_illegal v s a b hab) fun _ => rfl) h

end Sys2Proof.Proofs
end

section
/-! PROOFS. The bounds check of a memory read, and what a memory write gives back (20_memory.md R31, R32). -/

namespace Sys2Proof.Proofs

open Sys2Proof.Machine Sys2Proof.Laws

/-- Settles O29: the two sides of the bounds check. -/
theorem memoryReadIsBoundsChecked : Obligations.MemoryReadIsBoundsChecked := by
  unfold Obligations.MemoryReadIsBoundsChecked
  exact fun m addr => ⟨memRead_ok m addr, memRead_error m addr⟩

variable {m n : Memory} {addr : Nat} {v : Byte}

/-- A write that succeeds was in bounds and is a `put`. -/
theorem memWrite_cases (h : memWrite m addr v = .ok n) : addr ≤ 255 ∧ n = m.put addr v := by
  by_cases ha : addr ≤ 255
  · rw [memWrite_ok m addr v ha] at h
    cases h
    exact ⟨ha, rfl⟩
  · rw [memWrite_error m addr v (by omega)] at h
    cases h

/-- A write keeps the canonical form. -/
theorem memWrite_wf (hm : m.wf) (h : memWrite m addr v = .ok n) : n.wf := by
  obtain ⟨ha, rfl⟩ := memWrite_cases h
  exact wf_put m hm addr v (by omega)

/-- The written address reads back the byte. -/
theorem memRead_memWrite_same (hm : m.wf) (h : memWrite m addr v = .ok n) : memRead n addr = .ok v := by
  obtain ⟨ha, rfl⟩ := memWrite_cases h
  rw [memRead_ok _ _ ha, byte_put m hm, if_pos rfl]

/-- Every other address reads, or fails, as before the write. -/
theorem memRead_memWrite_ne (hm : m.wf) (h : memWrite m addr v = .ok n) {x : Nat} (hx : x ≠ addr) :
    memRead n x = memRead m x := by
  obtain ⟨-, rfl⟩ := memWrite_cases h
  by_cases hx255 : x ≤ 255
  · rw [memRead_ok _ _ hx255, memRead_ok _ _ hx255, byte_put m hm, if_neg hx]
  · rw [memRead_error _ _ (by omega), memRead_error _ _ (by omega)]

/-- Settles O30: the write in bounds is `memWrite_ok`, the rest its canonical form, its read-back and its neighbours. -/
theorem memoryWriteChangesOneCell : Obligations.MemoryWriteChangesOneCell := by
  unfold Obligations.MemoryWriteChangesOneCell
  refine fun m addr v => ⟨fun hm ha => ?_, memWrite_error m addr v⟩
  have hw := memWrite_ok m addr v ha
  exact ⟨_, hw, memWrite_wf hm hw, memRead_memWrite_same hm hw, fun _ hx => memRead_memWrite_ne hm hw hx⟩

end Sys2Proof.Proofs
end

section
/-! PROOFS. A byte selects a row exactly when it is the whole of the row's opcode byte (30_encoding.md R53). -/

namespace Sys2Proof.Proofs

open Sys2Proof.Machine Sys2Proof.Laws

variable {cfg : Config} {ir : Byte} {o : Opcode}

/-- A row that is selected matches the byte exactly: no bit of the byte is masked off. -/
theorem byte_eq_of_ofByte (h : Opcode.ofByte cfg ir = some o) : o.byte cfg = ir :=
  eq_of_beq (List.find?_some (p := fun p : Opcode => p.byte cfg == ir) h)

/-- The opcode map is the inverse of the rows' bytes. -/
theorem ofByte_eq_some_iff : Opcode.ofByte cfg ir = some o ↔ o.byte cfg = ir :=
  ⟨byte_eq_of_ofByte, fun h => h ▸ ofByte_byte cfg o⟩

/-- No row is selected exactly by the bytes that are no row's opcode. -/
theorem ofByte_eq_none_iff : Opcode.ofByte cfg ir = none ↔ ∀ o : Opcode, o.byte cfg ≠ ir := by
  simp only [Option.eq_none_iff_forall_ne_some, ne_eq, ofByte_eq_some_iff]

/-- Settles O25: the selection is `ofByte_eq_some_iff`, the rest what `decode` answers for a selected row and for none. -/
theorem decodeMatchesWholeByte : Obligations.DecodeMatchesWholeByte := by
  unfold Obligations.DecodeMatchesWholeByte
  refine fun cfg ir opA opB => ⟨fun o => ofByte_eq_some_iff.symm, fun o h => ?_, fun h => ?_⟩
  · exact (decode_ok_iff cfg ir opA opB _).mpr ⟨o, ofByte_eq_some_iff.mpr h, rfl⟩
  · exact (decode_error_iff cfg ir opA opB _).mpr ⟨ofByte_eq_none_iff.mpr h, rfl⟩

end Sys2Proof.Proofs
end

section
/-! PROOFS. The bytes of an instruction decode to it, whatever bytes follow them in memory (30_encoding.md R51, R53). -/

namespace Sys2Proof.Proofs

open Sys2Proof.Machine Sys2Proof.Laws

/-- The opcode byte of a row decodes to that row's instruction. -/
theorem decode_byte (cfg : Config) (o : Opcode) (opA opB : Byte) :
    decode cfg (o.byte cfg) opA opB = .ok (o.build opA opB) :=
  (decode_ok_iff cfg _ opA opB _).mpr ⟨o, ofByte_byte cfg o, rfl⟩

/-- Building from the operand bytes gives the instruction back: the bytes behind them are not used. -/
theorem build_of_operands_append {i : Instr} {rest tail : List Byte} {opA opB : Byte}
    (h : i.operands ++ rest = opA :: opB :: tail) : i.opcode.build opA opB = i := by
  cases i with
  | ret | hlt => rfl
  | prn a | push a | pop a | call a | jmp a | jeq a | jne a | not a =>
    obtain ⟨rfl, -⟩ := List.cons.inj h
    rfl
  | ldi a b | mul a b | add a b | cmp a b | and a b | or a b | xor a b | shl a b | shr a b | mod a b =>
    obtain ⟨rfl, hb⟩ := List.cons.inj h
    obtain ⟨rfl, -⟩ := List.cons.inj hb
    rfl

/-- Every instruction is encoded as the encoder's bytes. -/
theorem encodedAs_encode (cfg : Config) (i : Instr) : EncodedAs cfg i (encode cfg i) := by
  refine ⟨rfl, fun rest tail ir opA opB h => ?_⟩
  obtain ⟨rfl, hops⟩ := List.cons.inj h
  rw [decode_byte, build_of_operands_append hops]

end Sys2Proof.Proofs
end

section
/-! PROOFS. The two-operand ALU instructions that write a register (41_alu.md R85, R96). They are one meaning, `execBinary`, and
differ only in the exact result `f` of the operation; what that meaning answers is said once, for any `f`. -/

namespace Sys2Proof.Proofs

open Sys2Proof.Machine Sys2Proof.Laws

/-- The shared meaning: compute `f` of both operands, write it to the first, advance pc by 3. -/
def execBinary (f : Byte → Byte → Except Fault Nat) (a b : Byte) (s : State) : Host.Outcome State Fault Refusal :=
  commit s (do let t ← aluBinary f a b s; .ok (advance 3 t))

section
variable (a b : Byte) (s : State)

theorem exec_add : exec (.add a b) s = execBinary (fun va vb => .ok (addValue va vb)) a b s := rfl
theorem exec_mul : exec (.mul a b) s = execBinary (fun va vb => .ok (mulValue va vb)) a b s := rfl
theorem exec_or : exec (.or a b) s = execBinary (fun va vb => .ok (orValue va vb)) a b s := rfl
theorem exec_xor : exec (.xor a b) s = execBinary (fun va vb => .ok (xorValue va vb)) a b s := rfl
theorem exec_mod : exec (.mod a b) s = execBinary modValue a b s := rfl

end

section
variable {f : Byte → Byte → Except Fault Nat} {a b : Byte} {s : State}

/-- Of two legal indices with a result: the register file and pc change, nothing else. -/
theorem execBinary_ok {r : Nat} (ha : a.toNat < 8) (hb : b.toNat < 8)
    (hf : f s.regs[a.toNat] s.regs[b.toNat] = .ok r) :
    execBinary f a b s = .next { s with regs := s.regs.set a.toNat (wrap r), pc := s.pc + 3 } := by
  rw [execBinary, aluBinary_ok f a b s r ha hb hf]
  rfl

/-- Of two legal indices whose operation raises: its fault is taken. -/
theorem execBinary_error_value {e : Fault} (ha : a.toNat < 8) (hb : b.toNat < 8)
    (hf : f s.regs[a.toNat] s.regs[b.toNat] = .error e) :
    execBinary f a b s = .next { s with runState := .faulted e } := by
  rw [execBinary, aluBinary_error_value f a b s e ha hb hf]
  rfl

theorem execBinary_error_left (ha : 8 ≤ a.toNat) :
    execBinary f a b s = .next { s with runState := .faulted (.invalidRegister a) } := by
  rw [execBinary, aluBinary_error_left f a b s ha]
  rfl

theorem execBinary_error_right (ha : a.toNat < 8) (hb : 8 ≤ b.toNat) :
    execBinary f a b s = .next { s with runState := .faulted (.invalidRegister b) } := by
  rw [execBinary, aluBinary_error_right f a b s ha hb]
  rfl

end

/-- Settles O2: ADD is `execBinary` of the exact sum. -/
theorem addWritesSumModulo256 : Obligations.AddWritesSumModulo256 := by
  unfold Obligations.AddWritesSumModulo256
  intro cfg a b s
  rw [exec_add]
  exact ⟨encodedAs_encode cfg (.add a b), fun ha hb => execBinary_ok ha hb rfl,
    fun ha _ => execBinary_error_left ha, execBinary_error_right⟩

/-- Settles O3: MUL is `execBinary` of the exact product. -/
theorem mulWritesLowByteOfProduct : Obligations.MulWritesLowByteOfProduct := by
  unfold Obligations.MulWritesLowByteOfProduct
  intro cfg a b s
  rw [exec_mul]
  exact ⟨encodedAs_encode cfg (.mul a b), fun ha hb => execBinary_ok ha hb rfl,
    fun ha _ => execBinary_error_left ha, execBinary_error_right⟩

/-- Settles O5: OR is `execBinary` of a byte, which the reduction modulo 256 keeps. -/
theorem orWritesDisjunction : Obligations.OrWritesDisjunction := by
  unfold Obligations.OrWritesDisjunction
  intro cfg a b s
  rw [exec_or]
  refine ⟨encodedAs_encode cfg (.or a b), fun ha hb => ?_,
    fun ha _ => execBinary_error_left ha, execBinary_error_right⟩
  rw [execBinary_ok ha hb rfl, orValue, wrap_toNat]

/-- Settles O6: XOR is `execBinary` of a byte, which the reduction modulo 256 keeps. -/
theorem xorWritesExclusiveOr : Obligations.XorWritesExclusiveOr := by
  unfold Obligations.XorWritesExclusiveOr
  intro cfg a b s
  rw [exec_xor]
  refine ⟨encodedAs_encode cfg (.xor a b), fun ha hb => ?_,
    fun ha _ => execBinary_error_left ha, execBinary_error_right⟩
  rw [execBinary_ok ha hb rfl, xorValue, wrap_toNat]

/-- Settles O10: MOD is `execBinary` of `modValue`, whose two branches are the divisor that is zero and the one that is not. -/
theorem moduloWritesRemainderOrFaults : Obligations.ModuloWritesRemainderOrFaults := by
  unfold Obligations.ModuloWritesRemainderOrFaults
  intro cfg a b s
  rw [exec_mod]
  exact ⟨encodedAs_encode cfg (.mod a b), fun ha hb hne => execBinary_ok ha hb (if_neg hne),
    fun hb ha hz => execBinary_error_value ha hb (if_pos hz),
    fun ha _ => execBinary_error_left ha, execBinary_error_right⟩

end Sys2Proof.Proofs
end

section
/-! PROOFS. Which faults an instruction can raise (60_exceptions.md R152, R154). The idea: of a computation in `Except Fault` say
what holds of its value and of its fault, `Answers P F`. The rule for `bind` composes it, one rule per shared operation gives it,
and `commit` carries it to `exec`: an instruction that faults raised one of the two faults of `ExecFault`. -/

namespace Sys2Proof.Proofs

open Sys2Proof.Machine Sys2Proof.Laws

/-- The faults of an instruction that begins in `s`. -/
inductive ExecFault (s : State) : Instr → Fault → Prop where
  /-- A register operand that names no register (R152). -/
  | illegalOperand {i : Instr} {r : Byte} (hr : r ∈ i.registers) (h8 : 8 ≤ r.toNat) : ExecFault s i (.invalidRegister r)
  /-- MOD of two registers, the divisor holding 0 (R154). -/
  | zeroDivisor {a b : Byte} (ha : a.toNat < 8) (hb : b.toNat < 8) (hz : s.regs[b.toNat] = 0#8) :
    ExecFault s (.mod a b) .divisionByZero

/-- `P` holds of the value a computation answers, `F` of the fault it raises. -/
def Answers {α : Type} (P : α → Prop) (F : Fault → Prop) : Except Fault α → Prop
  | .ok x => P x
  | .error f => F f

/-- The state has not ended by a fault. -/
def Unfaulted (s : State) : Prop := ∀ f, s.runState ≠ .faulted f

theorem unfaulted_of_running {s : State} (hs : s.runState = .running) : Unfaulted s := by simp [Unfaulted, hs]

section
variable {α β : Type} {P : α → Prop} {Q : β → Prop} {F : Fault → Prop}

theorem Answers.bind {x : Except Fault α} {k : α → Except Fault β} (hx : Answers P F x)
    (hk : ∀ y, P y → Answers Q F (k y)) : Answers Q F (x >>= k) := by
  cases x with
  | ok y => exact hk y hx
  | error f => exact hx

/-- Moving pc ends no run. -/
theorem Answers.advance {x : Except Fault State} {n : Nat} (hx : Answers Unfaulted F x) :
    Answers Unfaulted F (do let t ← x; .ok (advance n t)) :=
  hx.bind fun _ ht => ht

/-- A commit that ends in a fault took a fault its computation raised, in the state before the step. -/
theorem Answers.commit_faulted {s t : State} {r : Except Fault State} {f : Fault} (hr : Answers Unfaulted F r)
    (h : commit s r = .next t) (hf : t.runState = .faulted f) : t = { s with runState := .faulted f } ∧ F f := by
  obtain rfl | ⟨e, rfl, rfl⟩ := commit_cases h
  · exact absurd hf (hr f)
  · obtain rfl : e = f := RunState.faulted.inj hf
    exact ⟨rfl, hr⟩

end

/-! ### The shared operations, for an instruction `i` that began in `s₀` -/

section
variable {i : Instr} {s₀ s : State} {a b : Byte}

theorem oneOperand_answers (ha : a ∈ i.registers) : Answers (fun _ => True) (ExecFault s₀ i) (oneOperand a s) := by
  by_cases h8 : a.toNat < 8
  · rw [oneOperand_ok a s h8]; trivial
  · rw [oneOperand_error a s (Nat.le_of_not_lt h8)]; exact .illegalOperand ha (Nat.le_of_not_lt h8)

theorem writeReg_answers (hs : Unfaulted s) (ha : a ∈ i.registers) (n : Nat) :
    Answers Unfaulted (ExecFault s₀ i) (writeReg a n s) := by
  by_cases h8 : a.toNat < 8
  · rw [writeReg_ok a n s h8]; exact hs
  · rw [writeReg_error a n s (Nat.le_of_not_lt h8)]; exact .illegalOperand ha (Nat.le_of_not_lt h8)

theorem storeAtSp_answers (hs : Unfaulted s) (v : Byte) : Answers Unfaulted (ExecFault s₀ i) (storeAtSp v s) := by
  rw [storeAtSp_eq]; exact hs

theorem loadAtSp_answers : Answers (fun _ => True) (ExecFault s₀ i) (loadAtSp s) := by
  rw [loadAtSp_eq]; trivial

theorem jumpVia_answers (hs : Unfaulted s) (ha : a ∈ i.registers) : Answers Unfaulted (ExecFault s₀ i) (jumpVia a s) :=
  (oneOperand_answers ha).bind fun _ _ => hs

theorem aluNot_answers (hs : Unfaulted s) (ha : a ∈ i.registers) : Answers Unfaulted (ExecFault s₀ i) (aluNot a s) :=
  (oneOperand_answers ha).bind fun va _ => writeReg_answers hs ha (notValue va)

/-- The two operands, once read, are the values of two registers. -/
theorem twoOperands_answers (h : [a, b] ⊆ i.registers) :
    Answers (fun p => ∃ (_ : a.toNat < 8) (_ : b.toNat < 8), p = (s.regs[a.toNat], s.regs[b.toNat])) (ExecFault s₀ i)
      (twoOperands a b s) := by
  obtain ⟨ha, hb⟩ : a ∈ i.registers ∧ b ∈ i.registers := by simpa using h
  by_cases ha8 : a.toNat < 8
  · by_cases hb8 : b.toNat < 8
    · rw [twoOperands_ok a b s ha8 hb8]; exact ⟨ha8, hb8, rfl⟩
    · rw [twoOperands_error_right a b s ha8 (Nat.le_of_not_lt hb8)]; exact .illegalOperand hb (Nat.le_of_not_lt hb8)
  · rw [twoOperands_error_left a b s (Nat.le_of_not_lt ha8)]; exact .illegalOperand ha (Nat.le_of_not_lt ha8)

theorem aluCmp_answers (hs : Unfaulted s) (h : [a, b] ⊆ i.registers) :
    Answers Unfaulted (ExecFault s₀ i) (aluCmp a b s) :=
  (twoOperands_answers h).bind fun _ _ => hs

/-- Beyond its operands a two-operand operation raises what its result `f` raises on the values of the two registers. -/
theorem aluBinary_answers {f : Byte → Byte → Except Fault Nat} (hs : Unfaulted s) (h : [a, b] ⊆ i.registers)
    (hf : ∀ (_ : a.toNat < 8) (_ : b.toNat < 8),
      Answers (fun _ => True) (ExecFault s₀ i) (f s.regs[a.toNat] s.regs[b.toNat])) :
    Answers Unfaulted (ExecFault s₀ i) (aluBinary f a b s) := by
  refine (twoOperands_answers h).bind ?_
  rintro _ ⟨ha8, hb8, rfl⟩
  exact (hf ha8 hb8).bind fun n _ => writeReg_answers hs (h List.mem_cons_self) n

/-- Of the ten ALU operations nine have an exact result for every two values, and so raise only at their operands. -/
theorem alu_answers {op : AluOp} (hop : op ≠ .mod) (hs : Unfaulted s) (h : [a, b] ⊆ i.registers) :
    Answers Unfaulted (ExecFault s₀ i) (alu op a b s) := by
  cases op with
  | mod => exact absurd rfl hop
  | not => exact aluNot_answers hs (h List.mem_cons_self)
  | cmp => exact aluCmp_answers hs h
  | add | mul | and | or | xor | shl | shr =>
    simp only [alu]
    exact aluBinary_answers hs h fun _ _ => trivial

/-- MOD's result raises on a divisor that is 0, and only there. -/
theorem modValue_answers (ha : a.toNat < 8) (hb : b.toNat < 8) :
    Answers (fun _ => True) (ExecFault s (.mod a b)) (modValue s.regs[a.toNat] s.regs[b.toNat]) := by
  by_cases hz : s.regs[b.toNat] = 0#8
  · rw [modValue, if_pos hz]; exact .zeroDivisor ha hb hz
  · rw [modValue, if_neg hz]; trivial

end

/-! ### All instructions -/

/-- The computation behind a meaning: its value has not ended by a fault, and its fault is one of the two of `ExecFault`. -/
theorem exec_answers (i : Instr) {s : State} (hs : Unfaulted s) :
    ∃ r, exec i s = commit s r ∧ Answers Unfaulted (ExecFault s i) r := by
  cases i with
  | ldi a imm => exact ⟨_, rfl, .advance (writeReg_answers hs List.mem_cons_self _)⟩
  | add a b | mul a b | cmp a b | and a b | or a b | xor a b | shl a b | shr a b =>
    exact ⟨_, rfl, .advance (alu_answers (by decide) hs (List.Subset.refl _))⟩
  | not a => exact ⟨_, rfl, .advance (alu_answers (by decide) hs (by simp [Instr.registers]))⟩
  | mod a b => exact ⟨_, rfl, .advance (aluBinary_answers hs (List.Subset.refl _) modValue_answers)⟩
  | prn a => exact ⟨_, rfl, (oneOperand_answers List.mem_cons_self).bind fun _ _ => hs⟩
  | push a =>
    exact ⟨_, rfl, (oneOperand_answers List.mem_cons_self).bind fun v _ =>
      .advance (storeAtSp_answers (s := decSp s) hs v)⟩
  | pop a =>
    exact ⟨_, rfl, loadAtSp_answers.bind fun v _ =>
      (writeReg_answers hs List.mem_cons_self v.toNat).bind fun _ ht => ht⟩
  | jmp a => exact ⟨_, rfl, jumpVia_answers hs List.mem_cons_self⟩
  | jeq a =>
    refine ⟨_, rfl, ?_⟩
    cases s.flagE with
    | true => exact jumpVia_answers hs List.mem_cons_self
    | false => exact hs
  | jne a =>
    refine ⟨_, rfl, ?_⟩
    cases s.flagE with
    | true => exact hs
    | false => exact jumpVia_answers hs List.mem_cons_self
  | call a =>
    exact ⟨_, rfl, (storeAtSp_answers (s := decSp s) hs _).bind fun _ ht => jumpVia_answers ht List.mem_cons_self⟩
  | ret => exact ⟨_, rfl, loadAtSp_answers.bind fun _ _ => hs⟩
  | hlt => exact ⟨.ok { s with runState := .halted }, rfl, fun _ => RunState.noConfusion⟩

/-- Everything an instruction of a Running engine that ends in a fault has done. -/
theorem exec_faulted {i : Instr} {s t : State} {f : Fault} (hs : s.runState = .running) (h : exec i s = .next t)
    (hf : t.runState = .faulted f) : t = { s with runState := .faulted f } ∧ ExecFault s i f := by
  obtain ⟨r, hr, ha⟩ := exec_answers i (unfaulted_of_running hs)
  exact ha.commit_faulted (hr.symm.trans h) hf

/-- Settles O57: of the two faults of `ExecFault` DivisionByZero is MOD's, and MOD raises it when its divisor is 0. -/
theorem divisionByZeroOnlyFromMod : Obligations.DivisionByZeroOnlyFromMod := by
  unfold Obligations.DivisionByZeroOnlyFromMod
  refine ⟨fun i s t hs h hf => ?_, fun a b s hb ha hz => ?_⟩
  · obtain ⟨ht, hfault⟩ := exec_faulted hs h hf
    cases hfault with
    | zeroDivisor ha hb hz => exact ⟨ht, _, _, rfl, ha, hb, hz⟩
  · rw [exec_mod]
    exact execBinary_error_value ha hb (if_pos hz)

end Sys2Proof.Proofs
end

section
/-! PROOFS. The Step operation, one equation per way it can go (30_encoding.md R60, 60_exceptions.md R160, R166): refused, fetch
fault, decode fault, or the decoded instruction run. -/

namespace Sys2Proof.Proofs

open Sys2Proof.Machine Sys2Proof.Laws

variable {cfg : Config} {s : State}

theorem stepWith_refused (h : s.runState.canStep = false) : stepWith cfg s = .refused .invalidState := by
  simp [stepWith, h]

theorem stepWith_fetch_error (h : s.runState.canStep = true) (hp : 254 ≤ s.pc) :
    stepWith cfg s = .next { s with runState := .faulted (.outOfBounds (max 256 s.pc)) } := by
  rw [stepWith, if_pos h, cycle, fetch_error (beginStep s) hp]
  rfl

/-- Up to pc = 256 the first address out of range is 256. -/
theorem stepWith_fetch_error_256 (h : s.runState.canStep = true) (hp : 254 ≤ s.pc) (hp' : s.pc ≤ 256) :
    stepWith cfg s = .next { s with runState := .faulted (.outOfBounds 256) } := by
  rw [stepWith_fetch_error h hp, Nat.max_eq_left hp']

theorem neverRunsAtTop (cfg : Config) (opcode : Byte) : NeverRunsAtTop cfg opcode :=
  fun _ h _ hp => stepWith_fetch_error_256 h (by omega) (by omega)

theorem stepWith_unknown (h : s.runState.canStep = true) (hp : s.pc ≤ 253)
    (ho : Opcode.ofByte cfg (s.mem.byte s.pc) = none) :
    stepWith cfg s = .next { s with runState := .faulted (.unknownOpcode s.pc (s.mem.byte s.pc)) } := by
  rw [stepWith, if_pos h, cycle, fetch_ok (beginStep s) hp]
  simp only [beginStep_mem, beginStep_pc, (decode_error_iff ..).mpr ⟨ho, rfl⟩]
  rfl

theorem stepWith_decodes {i : Instr} (h : s.runState.canStep = true) (hd : s.Decodes cfg i) :
    stepWith cfg s = exec i { s with runState := .running } := by
  obtain ⟨hp, hi⟩ := hd
  rw [stepWith, if_pos h, cycle, fetch_ok (beginStep s) hp]
  simp only [beginStep_mem, beginStep_pc, hi]
  rfl

end Sys2Proof.Proofs
end

section
/-! PROOFS. What each instruction answers, one equation per path (40_ldi.md to 44_system.md). The two-operand ALU instructions are
`execBinary`. -/

namespace Sys2Proof.Proofs

open Sys2Proof.Machine Sys2Proof.Laws

/-! ### The three ALU instructions whose meaning is `execBinary` and that are not named above -/

section
variable (a b : Byte) (s : State)

theorem exec_and : exec (.and a b) s = execBinary (fun va vb => .ok (andValue va vb)) a b s := rfl
theorem exec_shl : exec (.shl a b) s = execBinary (fun va vb => .ok (shlValue va vb)) a b s := rfl
theorem exec_shr : exec (.shr a b) s = execBinary (fun va vb => .ok (shrValue va vb)) a b s := rfl

end

section
variable {a b imm : Byte} {s : State}

/-! ### LDI, NOT, CMP and PRN -/

theorem exec_ldi_ok (ha : a.toNat < 8) :
    exec (.ldi a imm) s = .next { s with regs := s.regs.set a.toNat imm, pc := s.pc + 3 } := by
  simp only [exec, execLdi, immediate, writeReg_ok a _ s ha, wrap_toNat]
  rfl

theorem exec_ldi_error (ha : 8 ≤ a.toNat) :
    exec (.ldi a imm) s = .next { s with runState := .faulted (.invalidRegister a) } := by
  simp only [exec, execLdi, writeReg_error a _ s ha]
  rfl

theorem exec_not_ok (ha : a.toNat < 8) :
    exec (.not a) s =
      .next { s with regs := s.regs.set a.toNat (wrap (255 - s.regs[a.toNat].toNat)), pc := s.pc + 2 } := by
  simp only [exec, execNot, alu, aluNot_ok a s ha]
  rfl

theorem exec_not_error (ha : 8 ≤ a.toNat) :
    exec (.not a) s = .next { s with runState := .faulted (.invalidRegister a) } := by
  simp only [exec, execNot, alu, aluNot_error a s ha]
  rfl

theorem exec_cmp_error_left (ha : 8 ≤ a.toNat) :
    exec (.cmp a b) s = .next { s with runState := .faulted (.invalidRegister a) } := by
  simp only [exec, execCmp, alu, aluCmp_error_left a b s ha]
  rfl

theorem exec_cmp_error_right (ha : a.toNat < 8) (hb : 8 ≤ b.toNat) :
    exec (.cmp a b) s = .next { s with runState := .faulted (.invalidRegister b) } := by
  simp only [exec, execCmp, alu, aluCmp_error_right a b s ha hb]
  rfl

theorem exec_prn_ok (ha : a.toNat < 8) :
    exec (.prn a) s = .next { s with out := s.out ++ [s.regs[a.toNat]], pc := s.pc + 2 } := by
  simp only [exec, execPrn, oneOperand_ok a s ha]
  rfl

theorem exec_prn_error (ha : 8 ≤ a.toNat) :
    exec (.prn a) s = .next { s with runState := .faulted (.invalidRegister a) } := by
  simp only [exec, execPrn, oneOperand_error a s ha]
  rfl

/-! ### The stack -/

/-- A push, both halves: SP one lower modulo 256, the byte stored there. -/
theorem storeAtSp_decSp (v : Byte) (s : State) :
    storeAtSp v (decSp s) = .ok { s with regs := s.regs.set 7 (s.regs[7] - 1#8),
                                         mem := s.mem.put (s.regs[7] - 1#8).toNat v } := by
  rw [storeAtSp_eq]
  simp only [decSp_regs, decSp_mem, Vector.getElem_set_self]
  rfl

theorem exec_push_ok (ha : a.toNat < 8) :
    exec (.push a) s =
      .next { s with regs := s.regs.set 7 (s.regs[7] - 1#8),
                     mem := s.mem.put (s.regs[7] - 1#8).toNat (s.regs.set 7 (s.regs[7] - 1#8))[a.toNat],
                     pc := s.pc + 2 } := by
  simp only [exec, execPush, oneOperand_ok a (decSp s) ha, bind, Except.bind, storeAtSp_decSp]
  rfl

theorem exec_push_error (ha : 8 ≤ a.toNat) :
    exec (.push a) s = .next { s with runState := .faulted (.invalidRegister a) } := by
  simp only [exec, execPush, oneOperand_error a (decSp s) ha]
  rfl

theorem exec_pop_ok (ha : a.toNat < 8) :
    exec (.pop a) s =
      .next { s with regs := (s.regs.set a.toNat (s.mem.byte s.regs[7].toNat)).set 7
                       ((s.regs.set a.toNat (s.mem.byte s.regs[7].toNat))[7] + 1#8),
                     pc := s.pc + 2 } := by
  simp only [exec, execPop, loadAtSp_eq, bind, Except.bind, writeReg_ok a _ s ha, wrap_toNat]
  rfl

theorem exec_pop_error (ha : 8 ≤ a.toNat) :
    exec (.pop a) s = .next { s with runState := .faulted (.invalidRegister a) } := by
  simp only [exec, execPop, loadAtSp_eq, bind, Except.bind, writeReg_error a _ s ha, commit_error]

/-! ### Control -/

theorem exec_jmp_ok (ha : a.toNat < 8) : exec (.jmp a) s = .next { s with pc := s.regs[a.toNat].toNat } := by
  simp only [exec, execJmp, jumpVia_ok a s ha, commit_ok]

theorem exec_jmp_error (ha : 8 ≤ a.toNat) :
    exec (.jmp a) s = .next { s with runState := .faulted (.invalidRegister a) } := by
  simp only [exec, execJmp, jumpVia_error a s ha, commit_error]

/-- A taken JEQ is a JMP. -/
theorem exec_jeq_taken (hE : s.flagE = true) : exec (.jeq a) s = exec (.jmp a) s := by
  simp only [exec, execJeq, execJmp, if_pos hE]

theorem exec_jeq_not_taken (hE : s.flagE = false) : exec (.jeq a) s = .next { s with pc := s.pc + 2 } := by
  simp only [exec, execJeq, hE]
  rfl

/-- A taken JNE is a JMP. -/
theorem exec_jne_taken (hE : s.flagE = false) : exec (.jne a) s = exec (.jmp a) s := by
  simp only [exec, execJne, execJmp, hE]
  rfl

theorem exec_jne_not_taken (hE : s.flagE = true) : exec (.jne a) s = .next { s with pc := s.pc + 2 } := by
  simp only [exec, execJne, if_pos hE]
  rfl

theorem exec_call_ok (ha : a.toNat < 8) :
    exec (.call a) s =
      .next { s with regs := s.regs.set 7 (s.regs[7] - 1#8),
                     mem := s.mem.put (s.regs[7] - 1#8).toNat (wrap (s.pc + 2)),
                     pc := (s.regs.set 7 (s.regs[7] - 1#8))[a.toNat].toNat } := by
  simp only [exec, execCall, storeAtSp_decSp, bind, Except.bind, jumpVia_ok a _ ha, commit_ok]

theorem exec_call_error (ha : 8 ≤ a.toNat) :
    exec (.call a) s = .next { s with runState := .faulted (.invalidRegister a) } := by
  simp only [exec, execCall, storeAtSp_decSp, bind, Except.bind, jumpVia_error a _ ha, commit_error]

theorem exec_ret :
    exec .ret s =
      .next { s with pc := (s.mem.byte s.regs[7].toNat).toNat, regs := s.regs.set 7 (s.regs[7] + 1#8) } := by
  simp only [exec, execRet, loadAtSp_eq]
  rfl

theorem exec_hlt : exec .hlt s = .next { s with runState := .halted } := rfl

end

end Sys2Proof.Proofs
end

section
/-! PROOFS. Everything an instruction can do, said once (10_state.md R14, 30_encoding.md R59): it completes in one of ten ways,
`Completes`, or takes a fault. The statements about what an instruction writes and keeps are case analyses of `Completes`. -/

namespace Sys2Proof.Proofs

open Sys2Proof.Machine Sys2Proof.Laws

/-- The ways an instruction that began in `s` completes. What a constructor does not name is unchanged. -/
inductive Completes (s : State) : Instr → State → Prop where
  /-- LDI, NOT and the two-operand ALU instructions but CMP. -/
  | writesRegister {i : Instr} {a : Byte} (v : Byte) (ha : a.toNat < 8) (hw : written i = [a.toNat])
      (hr : redirects i s.flagE = false) :
      Completes s i { s with regs := s.regs.set a.toNat v, pc := s.pc + i.opcode.length }
  | compares (a b va vb : Byte) : Completes s (.cmp a b) { s with fl := compareFlags va vb, pc := s.pc + 3 }
  | prints {a : Byte} (ha : a.toNat < 8) :
      Completes s (.prn a) { s with out := s.out ++ [s.regs[a.toNat]], pc := s.pc + 2 }
  | pushes (a v : Byte) :
      Completes s (.push a) { s with regs := s.regs.set 7 (s.regs[7] - 1#8),
                                     mem := s.mem.put (s.regs[7] - 1#8).toNat v, pc := s.pc + 2 }
  | pops {a : Byte} (v w : Byte) (ha : a.toNat < 8) :
      Completes s (.pop a) { s with regs := (s.regs.set a.toNat v).set 7 w, pc := s.pc + 2 }
  | calls (a v target : Byte) :
      Completes s (.call a) { s with regs := s.regs.set 7 (s.regs[7] - 1#8),
                                     mem := s.mem.put (s.regs[7] - 1#8).toNat v, pc := target.toNat }
  | returns (target w : Byte) : Completes s .ret { s with pc := target.toNat, regs := s.regs.set 7 w }
  /-- JMP, and JEQ and JNE when taken. -/
  | jumps {i : Instr} (target : Byte) (hr : redirects i s.flagE = true) : Completes s i { s with pc := target.toNat }
  /-- JEQ and JNE when not taken. -/
  | fallsThrough {i : Instr} (hr : redirects i s.flagE = false) : Completes s i { s with pc := s.pc + i.opcode.length }
  | halts : Completes s .hlt { s with runState := .halted }

/-- The answers of an instruction that began in `s`: no refusal, and no outcome fault. -/
inductive ExecOutcome (s : State) (i : Instr) : Host.Outcome State Fault Refusal → Prop where
  | completes {t : State} (h : Completes s i t) : ExecOutcome s i (.next t)
  | faults (f : Fault) : ExecOutcome s i (.next { s with runState := .faulted f })

section
variable {s : State} {i : Instr} {a b : Byte}

theorem execBinary_outcome {f : Byte → Byte → Except Fault Nat} (hw : written i = [a.toNat])
    (hr : redirects i s.flagE = false) (hl : i.opcode.length = 3) : ExecOutcome s i (execBinary f a b s) := by
  by_cases ha : a.toNat < 8
  · by_cases hb : b.toNat < 8
    · cases hf : f s.regs[a.toNat] s.regs[b.toNat] with
      | ok r =>
        rw [execBinary_ok ha hb hf, ← hl]
        exact .completes (.writesRegister _ ha hw hr)
      | error e =>
        rw [execBinary_error_value ha hb hf]
        exact .faults e
    · rw [execBinary_error_right ha (Nat.le_of_not_lt hb)]
      exact .faults _
  · rw [execBinary_error_left (Nat.le_of_not_lt ha)]
    exact .faults _

theorem exec_jmp_outcome (hr : redirects i s.flagE = true) : ExecOutcome s i (exec (.jmp a) s) := by
  by_cases ha : a.toNat < 8
  · rw [exec_jmp_ok ha]
    exact .completes (.jumps _ hr)
  · rw [exec_jmp_error (Nat.le_of_not_lt ha)]
    exact .faults _

theorem exec_cmp_outcome : ExecOutcome s (.cmp a b) (exec (.cmp a b) s) := by
  by_cases ha : a.toNat < 8
  · by_cases hb : b.toNat < 8
    · rw [exec_cmp_ok s a b ha hb]
      exact .completes (.compares ..)
    · rw [exec_cmp_error_right ha (Nat.le_of_not_lt hb)]
      exact .faults _
  · rw [exec_cmp_error_left (Nat.le_of_not_lt ha)]
    exact .faults _

end

/-- Every instruction completes or takes a fault. -/
theorem exec_outcome (i : Instr) (s : State) : ExecOutcome s i (exec i s) := by
  cases i with
  | add a b | mul a b | and a b | or a b | xor a b | shl a b | shr a b | mod a b =>
    simp only [exec_add, exec_mul, exec_and, exec_or, exec_xor, exec_shl, exec_shr, exec_mod]
    exact execBinary_outcome rfl rfl rfl
  | cmp a b => exact exec_cmp_outcome
  | ldi a imm =>
    by_cases ha : a.toNat < 8
    · rw [exec_ldi_ok ha]; exact .completes (.writesRegister (i := .ldi a imm) _ ha rfl rfl)
    · rw [exec_ldi_error (Nat.le_of_not_lt ha)]; exact .faults _
  | not a =>
    by_cases ha : a.toNat < 8
    · rw [exec_not_ok ha]; exact .completes (.writesRegister (i := .not a) _ ha rfl rfl)
    · rw [exec_not_error (Nat.le_of_not_lt ha)]; exact .faults _
  | prn a =>
    by_cases ha : a.toNat < 8
    · rw [exec_prn_ok ha]; exact .completes (.prints ha)
    · rw [exec_prn_error (Nat.le_of_not_lt ha)]; exact .faults _
  | push a =>
    by_cases ha : a.toNat < 8
    · rw [exec_push_ok ha]; exact .completes (.pushes ..)
    · rw [exec_push_error (Nat.le_of_not_lt ha)]; exact .faults _
  | pop a =>
    by_cases ha : a.toNat < 8
    · rw [exec_pop_ok ha]; exact .completes (.pops _ _ ha)
    · rw [exec_pop_error (Nat.le_of_not_lt ha)]; exact .faults _
  | call a =>
    by_cases ha : a.toNat < 8
    · rw [exec_call_ok ha]; exact .completes (.calls ..)
    · rw [exec_call_error (Nat.le_of_not_lt ha)]; exact .faults _
  | ret => rw [exec_ret]; exact .completes (.returns ..)
  | jmp a => exact exec_jmp_outcome rfl
  | jeq a =>
    cases hE : s.flagE with
    | true => rw [exec_jeq_taken hE]; exact exec_jmp_outcome hE
    | false => rw [exec_jeq_not_taken hE]; exact .completes (.fallsThrough (i := .jeq a) hE)
  | jne a =>
    cases hE : s.flagE with
    | true => rw [exec_jne_not_taken hE]; exact .completes (.fallsThrough (i := .jne a) (by simp [redirects, hE]))
    | false => rw [exec_jne_taken hE]; exact exec_jmp_outcome (by simp [redirects, hE])
  | hlt => exact .completes .halts

section
variable {s t : State} {i : Instr}

theorem ExecOutcome.exists_next {o : Host.Outcome State Fault Refusal} (h : ExecOutcome s i o) : ∃ t, o = .next t := by
  cases h with
  | completes _ => exact ⟨_, rfl⟩
  | faults _ => exact ⟨_, rfl⟩

/-- Inversion: a next state is one in which the instruction completed, or a fault taken. -/
theorem exec_cases (h : exec i s = .next t) : Completes s i t ∨ ∃ f, t = { s with runState := .faulted f } := by
  cases h ▸ exec_outcome i s with
  | completes hc => exact .inl hc
  | faults f => exact .inr ⟨f, rfl⟩

end

end Sys2Proof.Proofs
end

section
/-! PROOFS. The round trip of encoder and decoder (30_encoding.md R51, R53, R59), and how many bytes are opcodes (R58). -/

namespace Sys2Proof.Proofs

open Sys2Proof.Machine Sys2Proof.Laws

/-- Settles O22: the encoder's bytes are an encoding in the sense of `EncodedAs`. -/
theorem decodeEncodeAgree : Obligations.DecodeEncodeAgree := by
  unfold Obligations.DecodeEncodeAgree
  exact fun cfg i => (encodedAs_encode cfg i).2

/-- Settles O23: the row that was selected has the first byte as its opcode, and its format says which others are operands. -/
theorem encodeDecodeAgree : Obligations.EncodeDecodeAgree := by
  unfold Obligations.EncodeDecodeAgree
  intro cfg ir opA opB i h
  obtain ⟨o, ho, rfl⟩ := (decode_ok_iff ..).mp h
  obtain rfl := byte_eq_of_ofByte ho
  cases o <;> rfl

/-- Settles O24: the bytes of the five words are opcode bytes whatever the configuration; the sixth is evaluated at the default. -/
theorem writtenOutWordsDecode : Obligations.WrittenOutWordsDecode := by
  unfold Obligations.WrittenOutWordsDecode
  exact fun cfg => ⟨decode_byte cfg .ldi .., decode_byte cfg .prn .., decode_byte cfg .hlt .., decode_byte cfg .cmp ..,
    decode_byte cfg .call .., decode_byte Config.defaults .mod ..⟩

/-! ### Counting the opcode bytes -/

/-- The byte values that select a row. -/
def knownValues (cfg : Config) : List Nat := (List.range 256).filter fun n => (Opcode.ofByte cfg (wrap n)).isSome

/-- The byte values of the 20 rows. -/
def rowValues (cfg : Config) : List Nat := Opcode.all.map fun o => (o.byte cfg).toNat

theorem rowValues_nodup (cfg : Config) : (rowValues cfg).Nodup :=
  List.Nodup.map (fun o p h => byte_injective cfg o p (BitVec.eq_of_toNat_eq h)) (by decide)

theorem mem_knownValues_iff (cfg : Config) (n : Nat) : n ∈ knownValues cfg ↔ n ∈ rowValues cfg := by
  simp only [knownValues, rowValues, List.mem_filter, List.mem_range, List.mem_map, Option.isSome_iff_exists,
    ofByte_eq_some_iff]
  constructor
  · rintro ⟨hn, o, ho⟩
    exact ⟨o, mem_all o, by rw [ho, BitVec.toNat_ofNat, Nat.mod_eq_of_lt hn]⟩
  · rintro ⟨o, -, rfl⟩
    exact ⟨(o.byte cfg).isLt, o, (wrap_toNat _).symm⟩

/-- Exactly the 20 rows' values select a row. -/
theorem knownValues_length (cfg : Config) : (knownValues cfg).length = 20 :=
  ((List.perm_ext_iff_of_nodup (List.nodup_range.filter _) (rowValues_nodup cfg)).mpr (mem_knownValues_iff cfg)).length_eq

/-- Settles O26: of the 256 values those that select no row are the other 236. -/
theorem unknownOpcodesAre236 : Obligations.UnknownOpcodesAre236 := by
  unfold Obligations.UnknownOpcodesAre236
  intro cfg
  have hsplit := List.length_eq_length_filter_add (l := List.range 256) fun n => (Opcode.ofByte cfg (wrap n)).isSome
  have hknown : (knownValues cfg).length = 20 := knownValues_length cfg
  simp only [Option.not_isSome, List.length_range] at hsplit
  unfold knownValues at hknown
  omega

end Sys2Proof.Proofs
end

section
/-! PROOFS. Every step and every Load keep the invariant (10_state.md R16, R18, R19, 20_memory.md R30), and reset meets it. -/

namespace Sys2Proof.Proofs

open Sys2Proof.Machine Sys2Proof.Laws

theorem compareFlags_mem (va vb : Byte) : compareFlags va vb ∈ [0#8, flEqual, flGreater, flLess] := by
  unfold compareFlags
  split
  · simp
  · split <;> simp

theorem opcode_length_le (o : Opcode) : o.length ≤ 3 := by cases o <;> decide

section
variable {cfg : Config} {s t : State} {i : Instr}

/-- An instruction that could be fetched keeps the invariant: it stores bytes only, moves pc by at most 3 or to a byte, and
writes FL with a comparison only. -/
theorem Completes.inv (h : Completes s i t) (hs : s.Inv) (hp : s.pc ≤ 253) : t.Inv := by
  obtain ⟨hm, hpc, hfl⟩ := hs
  have hlen : s.pc + i.opcode.length ≤ 256 := Nat.add_le_add hp (opcode_length_le i.opcode)
  cases h with
  | writesRegister | fallsThrough => exact ⟨hm, hlen, hfl⟩
  | prints | pops => exact ⟨hm, hlen, hfl⟩
  | compares a b va vb => exact ⟨hm, hlen, compareFlags_mem va vb⟩
  | pushes => exact ⟨wf_put _ hm _ _ (BitVec.isLt _), hlen, hfl⟩
  | calls a v target => exact ⟨wf_put _ hm _ _ (BitVec.isLt _), target.isLt.le, hfl⟩
  | returns target | jumps target => exact ⟨hm, target.isLt.le, hfl⟩
  | halts => exact ⟨hm, hpc, hfl⟩

theorem exec_inv (h : exec i s = .next t) (hs : s.Inv) (hp : s.pc ≤ 253) : t.Inv := by
  obtain hc | ⟨f, rfl⟩ := exec_cases h
  · exact hc.inv hs hp
  · exact hs

/-- A step whose fetch or decode raises keeps the invariant because it changes RunState alone. -/
theorem stepWith_inv (h : stepWith cfg s = .next t) (hs : s.Inv) : t.Inv := by
  obtain ⟨-, ⟨-, rfl⟩ | ⟨-, -, rfl⟩ | ⟨i, hd, hx⟩⟩ := stepWith_cases h
  · exact hs
  · exact hs
  · exact exec_inv hx hs hd.1

end

/-- Settles O35: `stepWith_inv`, of which `step` is the default configuration. -/
theorem stepKeepsInvariant : Obligations.StepKeepsInvariant := by
  unfold Obligations.StepKeepsInvariant
  exact ⟨fun _ _ _ hs h => stepWith_inv h hs, fun _ _ hs h => stepWith_inv h hs⟩

theorem resetWith_inv (cfg : Config) : (State.resetWith cfg).Inv := ⟨wf_nil, by simp, by simp⟩

/-- Settles O34: empty memory is canonical, pc and FL are 0. -/
theorem resetMeetsInvariant : Obligations.ResetMeetsInvariant := by
  unfold Obligations.ResetMeetsInvariant
  exact ⟨resetWith_inv, resetWith_inv _⟩

/-! ### Load -/

section
variable {bytes : List Byte} {s t : State}

theorem load_ok (hr : s.runState = .ready) (hl : bytes.length ≤ 256) :
    load bytes s = .next { s with mem := s.mem.putBytes 0 bytes } := by
  rw [load, if_pos hr, if_neg (by omega)]

theorem load_too_large (hr : s.runState = .ready) (hl : 256 < bytes.length) : load bytes s = .refused .programTooLarge := by
  rw [load, if_pos hr, if_pos hl]

theorem load_refused (hr : s.runState ≠ .ready) : load bytes s = .refused .invalidState := if_neg hr

/-- A Load that answers a next state stored the bytes from address 0 and changed nothing else. -/
theorem load_cases (h : load bytes s = .next t) :
    s.runState = .ready ∧ bytes.length ≤ 256 ∧ t = { s with mem := s.mem.putBytes 0 bytes } := by
  by_cases hr : s.runState = .ready
  · by_cases hl : bytes.length ≤ 256
    · rw [load_ok hr hl] at h
      cases h
      exact ⟨hr, hl, rfl⟩
    · rw [load_too_large hr (by omega)] at h
      cases h
  · rw [load_refused hr] at h
    cases h

end

/-- Settles O36: Load changes memory alone, and `putBytes` keeps the canonical form. -/
theorem loadKeepsInvariant : Obligations.LoadKeepsInvariant := by
  unfold Obligations.LoadKeepsInvariant
  intro bytes s t hs h
  obtain ⟨-, -, rfl⟩ := load_cases h
  obtain ⟨hm, hpc, hfl⟩ := hs
  exact ⟨wf_putBytes _ hm 0 bytes, hpc, hfl⟩

/-- Settles O50: the cells below the length hold the program, those from the length on are outside what `putBytes` writes. -/
theorem loadWritesTheProgramOnly : Obligations.LoadWritesTheProgramOnly := by
  unfold Obligations.LoadWritesTheProgramOnly
  refine fun bytes s hr => ⟨fun hm hl => ⟨_, load_ok hr hl, wf_putBytes _ hm 0 bytes, fun k hk => ?_, fun k hk => ?_⟩,
    load_too_large hr⟩
  · have hbyte := byte_putBytes s.mem hm 0 bytes (by omega) k
    rw [if_pos (by omega), Nat.sub_zero, List.getD_eq_getElem _ _ hk] at hbyte
    rw [memRead_ok _ _ (by omega), hbyte]
  · have hbyte := byte_putBytes s.mem hm 0 bytes (by omega) k
    rw [if_neg (by omega)] at hbyte
    rw [memRead, memRead, hbyte]

/-- Settles O33: each field of `resetWith`, and that no cell is listed. -/
theorem resetStateIsAsTheTable : Obligations.ResetStateIsAsTheTable := by
  unfold Obligations.ResetStateIsAsTheTable
  refine ⟨fun cfg => ⟨rfl, rfl, fun k hk => ?_, rfl, rfl, rfl, fun addr ha => memRead_ok [] addr ha⟩, rfl⟩
  rw [resetWith_regs]
  interval_cases k <;> rfl

end Sys2Proof.Proofs
end

section
/-! PROOFS. How a step ends (60_exceptions.md R152 to R165, 70_reset_and_hazards.md R199): which faults there are, that a fault
changes RunState alone, and that the state left behind explains the end. -/

namespace Sys2Proof.Proofs

open Sys2Proof.Machine Sys2Proof.Laws

section
variable {cfg : Config} {s t : State} {i : Instr} {f : Fault}

/-- A completed instruction of a Running engine leaves it Running, or is a HLT. -/
theorem Completes.running_or_halted (h : Completes s i t) (hs : s.runState = .running) :
    t.runState = .running ∨ (i = .hlt ∧ t.runState = .halted) := by
  cases h with
  | halts => exact .inr ⟨rfl, rfl⟩
  | _ => exact .inl hs

/-- A completed instruction of a Running engine has not ended in a fault. -/
theorem Completes.unfaulted (h : Completes s i t) (hs : s.runState = .running) : Unfaulted t := by
  obtain hrun | ⟨-, hrun⟩ := h.running_or_halted hs <;> simp [Unfaulted, hrun]

/-- The three ways a step can end in a fault, each in the state before the step. -/
inductive StepFault (cfg : Config) (s : State) : Fault → Prop where
  | fetch (hp : 254 ≤ s.pc) : StepFault cfg s (.outOfBounds (max 256 s.pc))
  | decode (hp : s.pc ≤ 253) (ho : Opcode.ofByte cfg (s.mem.byte s.pc) = none) :
    StepFault cfg s (.unknownOpcode s.pc (s.mem.byte s.pc))
  | execute {i : Instr} {f : Fault} (hd : s.Decodes cfg i) (hf : ExecFault s i f) : StepFault cfg s f

/-- Everything a step that answers a next state has done: it took a fault, or completed the decoded instruction. -/
theorem stepWith_outcome (h : stepWith cfg s = .next t) :
    (∃ f, StepFault cfg s f ∧ t = { s with runState := .faulted f }) ∨
    ∃ i, s.Decodes cfg i ∧ Completes { s with runState := .running } i t := by
  obtain ⟨-, ⟨hp, rfl⟩ | ⟨hp, ho, rfl⟩ | ⟨i, hd, hx⟩⟩ := stepWith_cases h
  · exact .inl ⟨_, .fetch hp, rfl⟩
  · exact .inl ⟨_, .decode hp ho, rfl⟩
  · obtain hc | ⟨f, rfl⟩ := exec_cases hx
    · exact .inr ⟨i, hd, hc⟩
    · obtain ⟨-, hf⟩ := exec_faulted rfl hx rfl
      refine .inl ⟨f, .execute hd ?_, rfl⟩
      cases hf with
      | illegalOperand hr h8 => exact .illegalOperand hr h8
      | zeroDivisor ha hb hz => exact .zeroDivisor ha hb hz

/-- A step that ends in a fault changed RunState alone. -/
theorem stepWith_faulted (h : stepWith cfg s = .next t) (hf : t.runState = .faulted f) :
    StepFault cfg s f ∧ t = { s with runState := .faulted f } := by
  obtain ⟨g, hg, rfl⟩ | ⟨i, -, hc⟩ := stepWith_outcome h
  · obtain rfl : g = f := RunState.faulted.inj hf
    exact ⟨hg, rfl⟩
  · exact absurd hf (hc.unfaulted rfl f)

/-- Every fault of a step is explained by the state before it, which is the state after it but for RunState. -/
theorem StepFault.endAccounted (h : StepFault cfg s f) (hp : s.pc ≤ 256) :
    ({ s with runState := .faulted f } : State).EndAccounted cfg := by
  cases h with
  | fetch hp' => exact And.intro hp' (Nat.max_eq_left hp)
  | decode hp' ho => exact And.intro rfl ⟨hp', rfl, ho⟩
  | execute hd hf =>
    cases hf with
    | illegalOperand hr h8 => exact And.intro h8 ⟨_, hd, hr⟩
    | zeroDivisor ha hb hz => exact Exists.intro _ ⟨_, hd, ha, hb, hz⟩

/-- A completed instruction leaves the engine Running, or is a HLT, which keeps pc and memory. -/
theorem Completes.endAccounted (h : Completes { s with runState := .running } i t) (hd : s.Decodes cfg i) :
    t.EndAccounted cfg := by
  cases h with
  | halts => exact hd
  | _ => trivial

theorem stepWith_endAccounted (h : stepWith cfg s = .next t) (hp : s.pc ≤ 256) : t.EndAccounted cfg := by
  obtain ⟨f, hf, rfl⟩ | ⟨i, hd, hc⟩ := stepWith_outcome h
  · exact hf.endAccounted hp
  · exact hc.endAccounted hd

end

/-- Settles O37: `stepWith_endAccounted`, of which `step` is the default configuration. -/
theorem everyEndIsAccountedFor : Obligations.EveryEndIsAccountedFor := by
  unfold Obligations.EveryEndIsAccountedFor
  exact ⟨fun _ _ _ hp h => stepWith_endAccounted h hp, fun _ _ hp h => stepWith_endAccounted h hp⟩

/-- Settles O38: a fault is taken in the state before the step. -/
theorem faultingStepChangesRunStateOnly : Obligations.FaultingStepChangesRunStateOnly := by
  unfold Obligations.FaultingStepChangesRunStateOnly
  exact ⟨fun _ _ _ _ h hf => (stepWith_faulted h hf).2, fun _ _ _ _ hs h hf => (exec_faulted hs h hf).1⟩

end Sys2Proof.Proofs
end

section
/-! PROOFS. The statements of the single instructions (40_ldi.md to 44_system.md), assembled from the equations of `exec` and of
the Step operation. -/

namespace Sys2Proof.Proofs

open Sys2Proof.Machine Sys2Proof.Laws

/-- Settles O1: a step of LDI at 253 leaves pc = 256, where the fetch of the next one fails. -/
theorem loadImmediateWritesRegister : Obligations.LoadImmediateWritesRegister := by
  unfold Obligations.LoadImmediateWritesRegister
  refine fun cfg a imm s => ⟨encodedAs_encode cfg (.ldi a imm), neverRunsAtTop cfg _, exec_ldi_ok, exec_ldi_error,
    fun hc hd hpc ha => ⟨_, (stepWith_decodes hc hd).trans (exec_ldi_ok ha), ?_⟩⟩
  have hpc3 : s.pc + 3 = 256 := by omega
  exact ⟨hpc3, stepWith_fetch_error_256 rfl (by simp only; omega) hpc3.le⟩

/-- Settles O4: AND is `execBinary` of a byte, which the reduction modulo 256 keeps. -/
theorem andWritesConjunctionOfBoth : Obligations.AndWritesConjunctionOfBoth := by
  unfold Obligations.AndWritesConjunctionOfBoth
  intro cfg a b s
  rw [exec_and]
  refine ⟨encodedAs_encode cfg (.and a b), neverRunsAtTop cfg _, fun ha hb => ?_,
    fun ha _ => execBinary_error_left ha, execBinary_error_right⟩
  rw [execBinary_ok ha hb rfl, andValue, wrap_toNat]

/-- Settles O7: the equations of NOT. -/
theorem notWritesComplement : Obligations.NotWritesComplement := by
  unfold Obligations.NotWritesComplement
  exact fun cfg a s => ⟨encodedAs_encode cfg (.not a), neverRunsAtTop cfg _, exec_not_ok, exec_not_error⟩

/-! ### Shifts by 8 or more move every bit out of the byte -/

theorem wrap_shlValue_eq_zero (va : Byte) {vb : Byte} (h : 8 ≤ vb.toNat) : wrap (shlValue va vb) = 0#8 := by
  have hdvd : 2 ^ 8 ∣ shlValue va vb := (pow_dvd_pow 2 h).mul_left va.toNat
  apply BitVec.eq_of_toNat_eq
  rw [BitVec.toNat_ofNat, Nat.mod_eq_zero_of_dvd hdvd, BitVec.toNat_ofNat, Nat.zero_mod]

theorem wrap_shrValue_eq_zero (va : Byte) {vb : Byte} (h : 8 ≤ vb.toNat) : wrap (shrValue va vb) = 0#8 := by
  have hlt : va.toNat < 2 ^ vb.toNat := va.isLt.trans_le (Nat.pow_le_pow_right (by decide) h)
  rw [shrValue, Nat.div_eq_of_lt hlt]

/-- Settles O8: SHL is `execBinary` of the exact product with the power of two. -/
theorem shiftLeftUsesWholeAmount : Obligations.ShiftLeftUsesWholeAmount := by
  unfold Obligations.ShiftLeftUsesWholeAmount
  intro cfg a b s
  rw [exec_shl]
  refine ⟨encodedAs_encode cfg (.shl a b), neverRunsAtTop cfg _, fun ha hb => execBinary_ok ha hb rfl,
    fun ha hb h8 => ?_, fun ha _ => execBinary_error_left ha, execBinary_error_right⟩
  rw [execBinary_ok ha hb rfl, wrap_shlValue_eq_zero _ h8]

/-- Settles O9: SHR is `execBinary` of the floor quotient by the power of two. -/
theorem shiftRightIsLogical : Obligations.ShiftRightIsLogical := by
  unfold Obligations.ShiftRightIsLogical
  intro cfg a b s
  rw [exec_shr]
  refine ⟨encodedAs_encode cfg (.shr a b), neverRunsAtTop cfg _, fun ha hb => execBinary_ok ha hb rfl,
    fun ha hb h8 => ?_, fun ha _ => execBinary_error_left ha, execBinary_error_right⟩
  rw [execBinary_ok ha hb rfl, wrap_shrValue_eq_zero _ h8]

/-! ### CMP -/

section
variable {va vb : Byte}

theorem compareFlags_of_eq (h : va.toNat = vb.toNat) : compareFlags va vb = 0x01#8 := if_pos (BitVec.eq_of_toNat_eq h)

theorem compareFlags_of_gt (h : vb.toNat < va.toNat) : compareFlags va vb = 0x02#8 := by
  have hne : va ≠ vb := fun e => h.ne (congrArg BitVec.toNat e.symm)
  rw [compareFlags, if_neg hne, if_pos h, flGreater]

theorem compareFlags_of_lt (h : va.toNat < vb.toNat) : compareFlags va vb = 0x04#8 := by
  have hne : va ≠ vb := fun e => h.ne (congrArg BitVec.toNat e)
  rw [compareFlags, if_neg hne, if_neg (Nat.not_lt_of_lt h), flLess]

end

/-- Settles O11: the three values of `compareFlags`. -/
theorem compareWritesOnlyFlags : Obligations.CompareWritesOnlyFlags := by
  unfold Obligations.CompareWritesOnlyFlags
  refine fun cfg a b s => ⟨encodedAs_encode cfg (.cmp a b), neverRunsAtTop cfg _, fun ha hb => ?_,
    fun ha _ => exec_cmp_error_left ha, exec_cmp_error_right⟩
  rw [exec_cmp_ok s a b ha hb]
  exact ⟨fun h => by rw [compareFlags_of_eq h], fun h => by rw [compareFlags_of_gt h], fun h => by rw [compareFlags_of_lt h]⟩

/-- Of the three flags a comparison sets the one that holds. -/
theorem compareFlags_cases (va vb : Byte) :
    (va.toNat = vb.toNat ∧ compareFlags va vb = 0x01#8) ∨ (vb.toNat < va.toNat ∧ compareFlags va vb = 0x02#8) ∨
      (va.toNat < vb.toNat ∧ compareFlags va vb = 0x04#8) := by
  rcases Nat.lt_trichotomy va.toNat vb.toNat with h | h | h
  · exact .inr (.inr ⟨h, compareFlags_of_lt h⟩)
  · exact .inl ⟨h, compareFlags_of_eq h⟩
  · exact .inr (.inl ⟨h, compareFlags_of_gt h⟩)

section
variable {s : State}

theorem flags_of_zero (h : s.fl = 0#8) : s.flagE = false ∧ s.flagG = false ∧ s.flagL = false := by
  simp [State.flagE, State.flagG, State.flagL, h]

theorem flags_of_equal (h : s.fl = 0x01#8) : s.flagE = true ∧ s.flagG = false ∧ s.flagL = false := by
  simp [State.flagE, State.flagG, State.flagL, h]

theorem flags_of_greater (h : s.fl = 0x02#8) : s.flagE = false ∧ s.flagG = true ∧ s.flagL = false := by
  simp [State.flagE, State.flagG, State.flagL, h]

theorem flags_of_less (h : s.fl = 0x04#8) : s.flagE = false ∧ s.flagG = false ∧ s.flagL = true := by
  simp [State.flagE, State.flagG, State.flagL, h]

end

/-- Swapping the compared values keeps Equal and exchanges Greater and Less. -/
theorem flags_compareFlags_swap {s t : State} {va vb : Byte} (hs : s.fl = compareFlags va vb)
    (ht : t.fl = compareFlags vb va) : t.flagE = s.flagE ∧ t.flagG = s.flagL ∧ t.flagL = s.flagG := by
  rcases Nat.lt_trichotomy va.toNat vb.toNat with h | h | h
  · rw [compareFlags_of_lt h] at hs
    rw [compareFlags_of_gt h] at ht
    simp [flags_of_less hs, flags_of_greater ht]
  · rw [compareFlags_of_eq h] at hs
    rw [compareFlags_of_eq h.symm] at ht
    simp [flags_of_equal hs, flags_of_equal ht]
  · rw [compareFlags_of_gt h] at hs
    rw [compareFlags_of_lt h] at ht
    simp [flags_of_greater hs, flags_of_less ht]

/-- Settles O45: the second CMP compares the same two values, swapped. -/
theorem swappedCompareMirrorsFlag : Obligations.SwappedCompareMirrorsFlag := by
  unfold Obligations.SwappedCompareMirrorsFlag
  exact fun a b s ha hb =>
    ⟨_, _, exec_cmp_ok s a b ha hb, exec_cmp_ok _ b a hb ha, flags_compareFlags_swap rfl rfl⟩

/-- A step that is not a CMP, or that faults, keeps FL. -/
theorem stepWith_fl {cfg : Config} {s t : State} (h : stepWith cfg s = .next t)
    (hk : (∀ a b, ¬ s.Decodes cfg (.cmp a b)) ∨ ∃ f, t.runState = .faulted f) : t.fl = s.fl := by
  obtain hcmp | ⟨f, hf⟩ := hk
  · obtain ⟨-, ⟨-, rfl⟩ | ⟨-, -, rfl⟩ | ⟨i, hd, hx⟩⟩ := stepWith_cases h
    · rfl
    · rfl
    · exact (exec_fl_of_ne_cmp hx fun a b hi => hcmp a b (hi ▸ hd) :)
  · obtain ⟨-, rfl⟩ := stepWith_faulted h hf
    rfl

/-- Settles O44: a CMP by the three values of `compareFlags`, any other step by `stepWith_fl`. -/
theorem compareSetsExactlyOneFlag : Obligations.CompareSetsExactlyOneFlag := by
  unfold Obligations.CompareSetsExactlyOneFlag
  refine ⟨fun a b s ha hb => ⟨_, exec_cmp_ok s a b ha hb, ?_⟩, fun cfg => flags_of_zero (resetWith_fl cfg),
    fun cfg s t h hk => stepWith_fl h hk⟩
  obtain ⟨-, h⟩ | ⟨-, h⟩ | ⟨-, h⟩ := compareFlags_cases s.regs[a.toNat] s.regs[b.toNat]
  · exact ⟨by simp [h], .inl (flags_of_equal h)⟩
  · exact ⟨by simp [h], .inr (.inl (flags_of_greater h))⟩
  · exact ⟨by simp [h], .inr (.inr (flags_of_less h))⟩

/-! ### The stack -/

/-- Settles O59: `storeAtSp_decSp`, `loadAtSp_eq` and the two wraps of SP. -/
theorem stackAccessNeverFaults : Obligations.StackAccessNeverFaults := by
  unfold Obligations.StackAccessNeverFaults
  refine fun s v => ⟨storeAtSp_decSp v s, loadAtSp_eq s, fun h => ?_, fun h => ?_⟩
  · rw [decSp_regs, Vector.getElem_set_self, h]; rfl
  · rw [incSp_regs, Vector.getElem_set_self, h]; rfl

section
variable {regs : Vector Byte 8} {v : Byte} {k : Nat}

/-- Register 7 by a variable index. -/
theorem getElem_set_seven_of_eq (hk : k < 8) (h : k = 7) : (regs.set 7 v)[k] = v := by
  subst h
  exact Vector.getElem_set_self _

theorem getElem_set_seven_of_ne (hk : k < 8) (h : k ≠ 7) : (regs.set 7 v)[k] = regs[k] :=
  Vector.getElem_set_ne _ hk h.symm

end

/-- Settles O12: the equations of PUSH, register 7 after the decrement, and the read after the store. -/
theorem pushStoresBelowStackPointer : Obligations.PushStoresBelowStackPointer := by
  unfold Obligations.PushStoresBelowStackPointer
  exact fun cfg a s => ⟨encodedAs_encode cfg (.push a), neverRunsAtTop cfg _,
    fun ha => ⟨exec_push_ok ha, getElem_set_seven_of_eq ha, getElem_set_seven_of_ne ha,
      fun hm x => byte_put s.mem hm _ _ x⟩,
    exec_push_error⟩

/-- Settles O13: in the equation of POP, SP is the old one unless the loaded byte was written to it. -/
theorem popLoadsThenIncrements : Obligations.PopLoadsThenIncrements := by
  unfold Obligations.PopLoadsThenIncrements
  refine fun cfg a s => ⟨encodedAs_encode cfg (.pop a), neverRunsAtTop cfg _, fun ha => ⟨fun hne => ?_, fun h7 => ?_⟩,
    exec_pop_error⟩
  · rw [exec_pop_ok ha, Vector.getElem_set_ne ha _ hne]
  · rw [exec_pop_ok ha]
    simp only [h7, Vector.getElem_set_self, Vector.set_set]

/-- Settles O46: POP writes back the byte PUSH stored, then SP is incremented back. -/
theorem pushPopIsStackNeutral : Obligations.PushPopIsStackNeutral := by
  unfold Obligations.PushPopIsStackNeutral
  intro a s hm ha
  refine ⟨_, _, exec_push_ok ha, exec_pop_ok ha, ?_, rfl, ?_, fun x hx => ?_, rfl, rfl, rfl⟩
  · simp [byte_put s.mem hm]
  · exact (byte_put s.mem hm _ _ _).trans (if_pos rfl)
  · exact (byte_put s.mem hm _ _ x).trans (if_neg hx)

/-- Settles O52: the fetch after a PUSH reads the stored memory, which `byte_put` describes. -/
theorem pushedByteIsSeenByNextFetch : Obligations.PushedByteIsSeenByNextFetch := by
  unfold Obligations.PushedByteIsSeenByNextFetch
  refine fun a s hm ha => ⟨_, exec_push_ok ha, fun p hp => ?_⟩
  rw [fetch_ok _ hp]
  simp only [byte_put s.mem hm]

/-! ### Control and system -/

/-- Settles O14: the equations of JMP; where the target is pc itself, the step leaves the state as it was, Running. -/
theorem jumpSetsProgramCounter : Obligations.JumpSetsProgramCounter := by
  unfold Obligations.JumpSetsProgramCounter
  refine fun cfg a s => ⟨encodedAs_encode cfg (.jmp a), neverRunsAtTop cfg _, exec_jmp_ok, exec_jmp_error,
    fun ha hc hd hself => ?_⟩
  rw [stepWith_decodes hc hd, exec_jmp_ok ha, hself]

/-- Settles O15: a taken JEQ is a JMP. -/
theorem jumpIfEqualReadsOnlyEqual : Obligations.JumpIfEqualReadsOnlyEqual := by
  unfold Obligations.JumpIfEqualReadsOnlyEqual
  exact fun cfg a s => ⟨encodedAs_encode cfg (.jeq a), neverRunsAtTop cfg _,
    fun ha hE => (exec_jeq_taken hE).trans (exec_jmp_ok ha), fun ha hE => (exec_jeq_taken hE).trans (exec_jmp_error ha),
    exec_jeq_not_taken⟩

/-- Settles O16: a taken JNE is a JMP. -/
theorem jumpIfNotEqualReadsOnlyEqual : Obligations.JumpIfNotEqualReadsOnlyEqual := by
  unfold Obligations.JumpIfNotEqualReadsOnlyEqual
  exact fun cfg a s => ⟨encodedAs_encode cfg (.jne a), neverRunsAtTop cfg _,
    fun ha hE => (exec_jne_taken hE).trans (exec_jmp_ok ha), fun ha hE => (exec_jne_taken hE).trans (exec_jmp_error ha),
    exec_jne_not_taken⟩

/-- Where a step can run a CALL the return address is a byte. -/
theorem returnAddress_toNat {pc : Nat} (h : pc ≤ 253) : (wrap (pc + 2)).toNat = pc + 2 := by
  rw [BitVec.toNat_ofNat]
  omega

/-- Settles O17: the equations of CALL, register 7 after the decrement, and the read after the store. -/
theorem callPushesReturnAddress : Obligations.CallPushesReturnAddress := by
  unfold Obligations.CallPushesReturnAddress
  exact fun cfg a s => ⟨encodedAs_encode cfg (.call a), neverRunsAtTop cfg _,
    fun ha => ⟨exec_call_ok ha, getElem_set_seven_of_eq ha, getElem_set_seven_of_ne ha, returnAddress_toNat,
      fun hm x => byte_put s.mem hm _ _ x⟩,
    exec_call_error⟩

/-- Settles O18: the equation of RET. -/
theorem returnPopsProgramCounter : Obligations.ReturnPopsProgramCounter := by
  unfold Obligations.ReturnPopsProgramCounter
  exact fun cfg s => ⟨encodedAs_encode cfg .ret, neverRunsAtTop cfg _, exec_ret⟩

/-- Settles O47: RET reads the return address where CALL stored it, and increments SP back. -/
theorem callReturnRestoresStackPointer : Obligations.CallReturnRestoresStackPointer := by
  unfold Obligations.CallReturnRestoresStackPointer
  refine fun a s hm hp ha => ⟨_, exec_call_ok ha, fun u hsp hcell => ⟨_, exec_ret, ?_, ?_⟩⟩
  · simp only [Vector.getElem_set_self] at hsp hcell
    simp only [hsp, hcell]
    rw [byte_put s.mem hm, if_pos rfl, returnAddress_toNat hp]
  · simp [hsp]

/-- Settles O19: the equations of PRN. -/
theorem printEmitsRegister : Obligations.PrintEmitsRegister := by
  unfold Obligations.PrintEmitsRegister
  exact fun cfg a s => ⟨encodedAs_encode cfg (.prn a), neverRunsAtTop cfg _, exec_prn_ok, exec_prn_error⟩

/-- Settles O20: the equation of HLT; Halted is a run state from which Step is refused. -/
theorem haltEndsTheRun : Obligations.HaltEndsTheRun := by
  unfold Obligations.HaltEndsTheRun
  exact fun cfg s => ⟨encodedAs_encode cfg .hlt, neverRunsAtTop cfg _, exec_hlt,
    fun hc hd => ⟨_, (stepWith_decodes hc hd).trans exec_hlt, rfl, stepWith_refused rfl⟩⟩

end Sys2Proof.Proofs
end

section
/-! PROOFS. The Step operation's ways, and which step raises which fault (30_encoding.md R60, 60_exceptions.md R151 to R160). -/

namespace Sys2Proof.Proofs

open Sys2Proof.Machine Sys2Proof.Laws

/-- Settles O21: `stepWith_decodes`, of which `step` is the default configuration. -/
theorem stepRunsDecodedInstruction : Obligations.StepRunsDecodedInstruction := by
  unfold Obligations.StepRunsDecodedInstruction
  exact ⟨fun _ _ _ => stepWith_decodes, fun _ _ => stepWith_decodes⟩

/-- Settles O27: the decode fault up to 253, the fetch fault above. -/
theorem unknownOpcodeFaults : Obligations.UnknownOpcodeFaults := by
  unfold Obligations.UnknownOpcodeFaults
  exact fun cfg s hc ho => ⟨fun hp => stepWith_unknown hc hp (ofByte_eq_none_iff.mpr ho),
    fun hp => stepWith_fetch_error_256 hc (by omega) (by omega)⟩

/-- Settles O51: at reset pc is 0 and every byte reads 0x00, which no row of the default configuration has as its opcode. -/
theorem emptyEngineFaultsAtOnce : Obligations.EmptyEngineFaultsAtOnce := by
  unfold Obligations.EmptyEngineFaultsAtOnce
  exact ⟨fun cfg ho => stepWith_unknown rfl (Nat.zero_le _) (ofByte_eq_none_iff.mpr ho),
    stepWith_unknown rfl (Nat.zero_le _) (by decide)⟩

/-- The faults of an instruction are InvalidRegister and DivisionByZero. -/
theorem ExecFault.ne_outOfBounds {s : State} {i : Instr} {address : Nat} : ¬ ExecFault s i (.outOfBounds address) :=
  fun h => nomatch h

/-- A step raises OutOfBounds only where the fetch fails. -/
theorem StepFault.outOfBounds_pc {cfg : Config} {s : State} {address : Nat} (h : StepFault cfg s (.outOfBounds address)) :
    254 ≤ s.pc := by
  cases h with
  | fetch hp => exact hp
  | execute _ hf => exact absurd hf ExecFault.ne_outOfBounds

/-- Settles O28: the two sides of the bounds check, the fetch fault, and that execution raises two other faults only. -/
theorem outOfBoundsOnlyFromFetch : Obligations.OutOfBoundsOnlyFromFetch := by
  unfold Obligations.OutOfBoundsOnlyFromFetch
  refine ⟨fun m addr v => ⟨fun h => ⟨memRead_error m addr h, memWrite_error m addr v h⟩,
      fun h => ⟨memRead_ok m addr h, memWrite_ok m addr v h⟩⟩,
    fun cfg s hc => ⟨fun hp => stepWith_fetch_error_256 hc (by omega) (by omega), fun hp => ?_, fun hp t address h hf => ?_⟩,
    fun i s t address hs h hf => ?_⟩
  · rw [stepWith_fetch_error hc (by omega), Nat.max_eq_right hp]
  · have := (stepWith_faulted h hf).1.outOfBounds_pc
    omega
  · exact ExecFault.ne_outOfBounds (exec_faulted hs h hf).2

/-- Settles O32: the three equations of the register accesses. -/
theorem registerIndexIsNeverMasked : Obligations.RegisterIndexIsNeverMasked := by
  unfold Obligations.RegisterIndexIsNeverMasked
  exact fun i v s => ⟨fun h => ⟨readReg_error i s h, writeReg_error i v s h⟩, readReg_ok i s⟩

/-- Settles O55: every F2 ALU instruction checks `a` first; the fetch fault comes before any decode. -/
theorem faultPriorityIsTheStepOrder : Obligations.FaultPriorityIsTheStepOrder := by
  unfold Obligations.FaultPriorityIsTheStepOrder
  refine ⟨fun a b s i ha _ hi => ?_, fun a b s _ ha _ => (exec_mod a b s).trans (execBinary_error_left ha),
    fun cfg s => stepWith_fetch_error_256⟩
  simp only [List.mem_cons, List.not_mem_nil, or_false] at hi
  rcases hi with rfl | rfl | rfl | rfl | rfl | rfl | rfl | rfl | rfl
  case inr.inr.inl => exact exec_cmp_error_left ha
  all_goals
    simp only [exec_add, exec_mul, exec_and, exec_or, exec_xor, exec_shl, exec_shr, exec_mod]
    exact execBinary_error_left ha

/-- Settles O58: of the two faults of `ExecFault` InvalidRegister names an operand above 7. -/
theorem invalidRegisterNamesAnOperand : Obligations.InvalidRegisterNamesAnOperand := by
  unfold Obligations.InvalidRegisterNamesAnOperand
  intro i s t index hs h hf
  cases (exec_faulted hs h hf).2 with
  | illegalOperand hr h8 =>
    refine ⟨hr, h8, ?_⟩
    rw [Instr.wellFormed, List.all_eq_false]
    exact ⟨index, hr, by simpa using h8⟩

/-! ### The ALU's named interface -/

theorem writeReg_raises {s₀ s : State} {i : Instr} {a : Byte} (ha : a ∈ i.registers) (n : Nat) :
    Answers (fun _ => True) (ExecFault s₀ i) (writeReg a n s) := by
  by_cases h8 : a.toNat < 8
  · rw [writeReg_ok a n s h8]; trivial
  · rw [writeReg_error a n s (Nat.le_of_not_lt h8)]; exact .illegalOperand ha (Nat.le_of_not_lt h8)

/-- From any state, ended or not, each of the ten operations raises only what MOD raises. -/
theorem alu_raises (op : AluOp) (a b : Byte) (s : State) :
    Answers (fun _ => True) (ExecFault s (.mod a b)) (alu op a b s) := by
  have ha : a ∈ (Instr.mod a b).registers := List.mem_cons_self
  have htwo := twoOperands_answers (s₀ := s) (s := s) (List.Subset.refl (Instr.mod a b).registers)
  cases op with
  | not => exact (oneOperand_answers ha).bind fun va _ => writeReg_raises ha (notValue va)
  | cmp => exact htwo.bind fun _ _ => trivial
  | mod =>
    refine htwo.bind ?_
    rintro _ ⟨ha8, hb8, rfl⟩
    exact (modValue_answers ha8 hb8).bind fun n _ => writeReg_raises ha n
  | add | mul | and | or | xor | shl | shr => exact htwo.bind fun _ _ => writeReg_raises ha _

/-- None of the ten operations raises UnsupportedOperation. -/
theorem alu_ne_unsupported (op : AluOp) (name : String) (a b : Byte) (s : State) :
    alu op a b s ≠ .error (.unsupportedOperation name) := fun h => by
  have hraises := alu_raises op a b s
  rw [h] at hraises
  cases hraises

/-- The ten names of R97. -/
def aluNames : List String := ["ADD", "MUL", "AND", "OR", "XOR", "NOT", "SHL", "SHR", "MOD", "CMP"]

theorem ofName_eq_none {name : String} (h : name ∉ aluNames) : AluOp.ofName name = none := by
  unfold AluOp.ofName
  split <;> simp_all [aluNames]

theorem exists_ofName {name : String} (h : name ∈ aluNames) : ∃ op, AluOp.ofName name = some op := by
  simp only [aluNames, List.mem_cons, List.not_mem_nil, or_false] at h
  rcases h with rfl | rfl | rfl | rfl | rfl | rfl | rfl | rfl | rfl | rfl <;> exact ⟨_, rfl⟩

/-- No step raises it: a fault of a step is one of the fetch, of the decoder, or of an executed instruction. -/
theorem StepFault.ne_unsupported {cfg : Config} {s : State} {name : String} :
    ¬ StepFault cfg s (.unsupportedOperation name) := by
  rintro (_ | _ | ⟨_, hf⟩)
  cases hf

/-- Settles O56: a step's faults are those of `StepFault`; the named interface raises it where the name is none of the ten. -/
theorem unsupportedOperationIsUnreachable : Obligations.UnsupportedOperationIsUnreachable := by
  unfold Obligations.UnsupportedOperationIsUnreachable
  refine ⟨fun cfg s t name h hf => StepFault.ne_unsupported (stepWith_faulted h hf).1,
    fun name a b s => ⟨fun hn => ?_, fun hn => ?_⟩⟩
  · rw [aluByName, ofName_eq_none hn]
  · obtain ⟨op, hop⟩ := exists_ofName hn
    rw [aluByName, hop]
    exact alu_ne_unsupported op name a b s

end Sys2Proof.Proofs
end

section
/-! PROOFS. What an instruction writes and what it keeps, read off from the ways it completes (10_state.md R14, R22, R23,
30_encoding.md R59). -/

namespace Sys2Proof.Proofs

open Sys2Proof.Machine Sys2Proof.Laws

section
variable {cfg : Config} {s t : State} {i : Instr}

theorem Completes.regs_eq {r : Nat} (h : Completes s i t) (hr : r < 8) (hw : r ∉ written i) : t.regs[r] = s.regs[r] := by
  cases h with
  | @writesRegister _ a v ha hwi =>
    have hne : r ≠ a.toNat := by simpa [hwi] using hw
    exact Vector.getElem_set_ne ha hr hne.symm
  | @pops a v w ha =>
    obtain ⟨hne, h7⟩ : r ≠ a.toNat ∧ r ≠ 7 := by simpa [written] using hw
    exact (getElem_set_seven_of_ne hr h7).trans (Vector.getElem_set_ne ha hr hne.symm)
  | pushes | calls | returns => exact getElem_set_seven_of_ne hr (by simpa [written] using hw)
  | compares | prints | jumps | fallsThrough | halts => rfl

/-- Only PRN of a register that exists appends to the output. -/
theorem Completes.out_cases (h : Completes s i t) :
    t.out = s.out ∨ ∃ a, i = .prn a ∧ ∃ ha : a.toNat < 8, t.out = s.out ++ [s.regs[a.toNat]] := by
  cases h with
  | prints ha => exact .inr ⟨_, rfl, ha, rfl⟩
  | _ => exact .inl rfl

/-- Only PUSH and CALL store, and they store one byte at the new SP. -/
theorem Completes.mem_cases (h : Completes s i t) :
    t.mem = s.mem ∨ ∃ a v, (i = .push a ∨ i = .call a) ∧ t.mem = s.mem.put (s.regs[7] - 1#8).toNat v := by
  cases h with
  | pushes a v => exact .inr ⟨a, v, .inl rfl, rfl⟩
  | calls a v => exact .inr ⟨a, v, .inr rfl, rfl⟩
  | _ => exact .inl rfl

/-- What does not redirect adds its length to pc, but for HLT. -/
theorem Completes.pc_of_not_redirects (h : Completes s i t) (hr : redirects i s.flagE = false) :
    t.pc = s.pc + i.opcode.length ∨ t.runState = .halted := by
  cases h with
  | halts => exact .inr rfl
  | jumps _ hr' => exact absurd (hr'.symm.trans hr) (by decide)
  | calls | returns => exact nomatch hr
  | writesRegister | compares | prints | pushes | pops | fallsThrough => exact .inl rfl

/-- What redirects sets pc to a byte. -/
theorem Completes.pc_of_redirects (h : Completes s i t) (hr : redirects i s.flagE = true) : t.pc ≤ 255 := by
  cases h with
  | jumps target | calls _ _ target | returns target => exact Nat.le_of_lt_succ target.isLt
  | writesRegister _ _ _ hr' | fallsThrough hr' => exact absurd (hr'.symm.trans hr) (by decide)
  | compares | prints | pushes | pops | halts => exact nomatch hr

/-- An instruction that leaves the engine Running took no fault: it completed. -/
theorem completes_of_running (h : exec i s = .next t) (ht : t.runState = .running) : Completes s i t := by
  obtain hc | ⟨f, rfl⟩ := exec_cases h
  · exact hc
  · cases ht

end

theorem encode_length (cfg : Config) (i : Instr) : (encode cfg i).length = i.opcode.length := by cases i <;> rfl

/-- Settles O48: a completed instruction by `Completes.regs_eq`, a fault because it keeps the register file. -/
theorem registersChangeOnlyAsWritten : Obligations.RegistersChangeOnlyAsWritten := by
  unfold Obligations.RegistersChangeOnlyAsWritten
  intro i s t r hr h hw
  obtain hc | ⟨f, rfl⟩ := exec_cases h
  · exact hc.regs_eq hr hw
  · rfl

/-- Settles O41: `Completes.out_cases` for the instruction at pc. -/
theorem outputGrowsOnlyByPrint : Obligations.OutputGrowsOnlyByPrint := by
  unfold Obligations.OutputGrowsOnlyByPrint
  intro cfg s t h
  obtain ⟨f, -, rfl⟩ | ⟨i, hd, hc⟩ := stepWith_outcome h
  · exact .inl rfl
  · obtain hout | ⟨a, rfl, ha, hout⟩ := hc.out_cases
    · exact .inl hout
    · exact .inr ⟨a, hd, ha, hout⟩

/-- Settles O42: `Completes.mem_cases` for the instruction at pc, and the frame of a store. -/
theorem memoryChangesOnlyByPushAndCall : Obligations.MemoryChangesOnlyByPushAndCall := by
  unfold Obligations.MemoryChangesOnlyByPushAndCall
  intro cfg s t h
  obtain ⟨f, -, rfl⟩ | ⟨i, hd, hc⟩ := stepWith_outcome h
  · exact .inl rfl
  · obtain hmem | ⟨a, v, hi, hmem⟩ := hc.mem_cases
    · exact .inl hmem
    · refine .inr ⟨⟨a, hi.imp (fun e : i = .push a => e ▸ hd) (fun e : i = .call a => e ▸ hd)⟩, fun hm x hx => ?_⟩
      rw [hmem, byte_put s.mem hm, if_neg hx]

/-- The operand counts of the formats F0 and F1 (R51). -/
theorem operands_length (i : Instr) :
    (i.operands.length = 0 ↔ i = .ret ∨ i = .hlt) ∧
    (i.operands.length = 1 ↔ ∃ a, i = .prn a ∨ i = .push a ∨ i = .pop a ∨ i = .call a ∨ i = .jmp a ∨ i = .jeq a ∨
      i = .jne a ∨ i = .not a) ∧ i.operands.length ≤ 2 := by
  cases i <;> simp [Instr.operands]

/-- Settles O49: the lengths of the encodings, and where pc goes when an instruction completes. -/
theorem programCounterAdvancesByLength : Obligations.ProgramCounterAdvancesByLength := by
  unfold Obligations.ProgramCounterAdvancesByLength
  refine ⟨fun cfg i => ⟨Nat.add_comm _ 1, operands_length i⟩, fun cfg i s t _ h ht hr => ?_,
    fun i s t _ h ht hr => (completes_of_running h ht).pc_of_redirects hr, fun s t h => ?_⟩
  · rw [encode_length]
    refine ((completes_of_running h ht).pc_of_not_redirects hr).resolve_right fun hh => ?_
    rw [ht] at hh
    cases hh
  · rw [exec_hlt] at h
    cases h
    rfl

end Sys2Proof.Proofs
end

section
/-! PROOFS. The run states (60_exceptions.md R165) and runs under a bound (R167, R200): a property that every step keeps holds at
the end of a run. -/

namespace Sys2Proof.Proofs

open Sys2Proof.Machine Sys2Proof.Laws

section
variable {cfg : Config} {s t : State}

theorem canStep_iff : s.runState.canStep = true ↔ s.runState = .ready ∨ s.runState = .running := by
  cases s.runState <;> simp [RunState.canStep]

theorem canStep_eq_false_iff : s.runState.canStep = false ↔ s.runState = .halted ∨ ∃ f, s.runState = .faulted f := by
  cases s.runState <;> simp [RunState.canStep]

theorem stepWith_total (hc : s.runState.canStep = true) : ∃ t, stepWith cfg s = .next t := by
  by_cases hp : s.pc ≤ 253
  · cases hd : decode cfg (s.mem.byte s.pc) (s.mem.byte (s.pc + 1)) (s.mem.byte (s.pc + 2)) with
    | ok i =>
      rw [stepWith_decodes hc ⟨hp, hd⟩]
      exact (exec_outcome i _).exists_next
    | error e => exact ⟨_, stepWith_unknown hc hp ((decode_error_iff ..).mp hd).1⟩
  · exact ⟨_, stepWith_fetch_error hc (by omega)⟩

/-- The run states a step leads to. -/
theorem stepWith_runState (h : stepWith cfg s = .next t) :
    t.runState = .running ∨ (t.runState = .halted ∧ s.Decodes cfg .hlt) ∨ ∃ f, t.runState = .faulted f := by
  obtain ⟨f, -, rfl⟩ | ⟨i, hd, hc⟩ := stepWith_outcome h
  · exact .inr (.inr ⟨f, rfl⟩)
  · obtain hrun | ⟨rfl, hhlt⟩ := hc.running_or_halted rfl
    · exact .inl hrun
    · exact .inr (.inl ⟨hhlt, hd⟩)

theorem stepWith_ne_ready (h : stepWith cfg s = .next t) : t.runState ≠ .ready := by
  obtain ht | ⟨ht, -⟩ | ⟨f, ht⟩ := stepWith_runState h <;> simp [ht]

theorem stepWith_hlt (hc : s.runState.canStep = true) (hd : s.Decodes cfg .hlt) :
    stepWith cfg s = .next { s with runState := .halted } := (stepWith_decodes hc hd).trans exec_hlt

end

/-- Settles O39: an instruction by `exec_outcome`, a step by the case it is in. -/
theorem everyLiveStateHasNextStep : Obligations.EveryLiveStateHasNextStep := by
  unfold Obligations.EveryLiveStateHasNextStep
  exact ⟨fun i s => (exec_outcome i s).exists_next, fun _ _ => stepWith_total⟩

/-! ### Runs -/

section
variable {cfg : Config} {s t : State}

theorem runFor_ok (n : Nat) (hc : s.runState.canStep = true) : runFor cfg n s = .next (runLoop cfg n s) := if_pos hc

theorem runFor_refused (n : Nat) (hc : s.runState.canStep = false) : runFor cfg n s = .refused .invalidState := by
  rw [runFor, hc]
  rfl

/-- What holds at the start and is kept by every step holds at the end of a run. -/
theorem runLoop_induction {P : State → Prop} (hstep : ∀ s t, P s → stepWith cfg s = .next t → P t) (n : Nat) (hs : P s) :
    P (runLoop cfg n s) := by
  induction n generalizing s with
  | zero => exact hs
  | succ n ih =>
    by_cases hc : s.runState.canStep = true
    · obtain ⟨t, ht⟩ := stepWith_total (cfg := cfg) hc
      rw [runLoop_succ cfg n ht]
      exact ih (hstep s t hs ht)
    · rwa [runLoop_terminal cfg _ (by simpa using hc)]

/-- The invariant and the account of the end hold at the end of a run. -/
theorem runLoop_inv_endAccounted (n : Nat) (hi : s.Inv) (he : s.EndAccounted cfg) :
    (runLoop cfg n s).Inv ∧ (runLoop cfg n s).EndAccounted cfg :=
  runLoop_induction (P := fun s => s.Inv ∧ s.EndAccounted cfg)
    (fun _ _ ⟨hi, _⟩ h => ⟨stepWith_inv h hi, stepWith_endAccounted h hi.2.1⟩) n ⟨hi, he⟩

/-- A state that can step has no end to account for. -/
theorem endAccounted_of_canStep (hc : s.runState.canStep = true) : s.EndAccounted cfg := by
  unfold State.EndAccounted
  obtain h | h := canStep_iff.mp hc <;> simp [h]

/-- After at least one step a run is not Ready. -/
theorem runLoop_ne_ready {n : Nat} (hn : 0 < n) (hc : s.runState.canStep = true) :
    (runLoop cfg n s).runState ≠ .ready := by
  obtain ⟨m, rfl⟩ := Nat.exists_eq_add_of_lt hn
  obtain ⟨t, ht⟩ := stepWith_total (cfg := cfg) hc
  rw [Nat.zero_add, runLoop_succ cfg m ht]
  exact runLoop_induction (P := fun s => s.runState ≠ .ready) (fun _ _ _ h => stepWith_ne_ready h) m (stepWith_ne_ready ht)

/-- One more step of the bound is one more step. -/
theorem runLoop_add_one {n : Nat} (h : stepWith cfg (runLoop cfg n s) = .next t) : runLoop cfg (n + 1) s = t := by
  rw [runLoop_add, runLoop_succ cfg 0 h, runLoop]

/-- A larger bound does not change a run that has ended. -/
theorem runLoop_add_of_terminal {n : Nat} (h : (runLoop cfg n s).runState.canStep = false) (m : Nat) :
    runLoop cfg (n + m) s = runLoop cfg n s := by
  rw [runLoop_add, runLoop_terminal cfg m h]

end

/-- Settles O53: the laws of `runLoop` above, for the state a run of bound `n` reaches. -/
theorem boundedRunStepsUntilTerminal : Obligations.BoundedRunStepsUntilTerminal := by
  unfold Obligations.BoundedRunStepsUntilTerminal
  refine fun cfg n s => ⟨fun hc => ⟨runFor_ok 0 hc, _, runFor_ok n hc,
    fun hi => runLoop_inv_endAccounted n hi (endAccounted_of_canStep hc), fun hn => runLoop_ne_ready hn hc,
    fun ht => ?_, fun ht => ⟨canStep_eq_false_iff.mp ht, fun m => ?_⟩⟩, runFor_refused n⟩
  · obtain ⟨u, hu⟩ := stepWith_total (cfg := cfg) ht
    exact ⟨u, hu, by rw [runFor_ok _ hc, runLoop_add_one hu]⟩
  · rw [runFor_ok _ hc, runLoop_add_of_terminal ht m]

/-- Settles O54: under the sum of the two bounds both runs have ended where they ended before. -/
theorem runHasOneResult : Obligations.RunHasOneResult := by
  unfold Obligations.RunHasOneResult
  rintro cfg s t u ⟨-, n, rfl, hn⟩ ⟨-, m, rfl, hm⟩
  calc runLoop cfg n s = runLoop cfg (n + m) s := (runLoop_add_of_terminal hn m).symm
    _ = runLoop cfg (m + n) s := by rw [Nat.add_comm]
    _ = runLoop cfg m s := runLoop_add_of_terminal hm n

/-- Settles O40: the rows of R165's table, each by the equation of its operation. -/
theorem runStateTransitionsAreComplete : Obligations.RunStateTransitionsAreComplete := by
  unfold Obligations.RunStateTransitionsAreComplete
  refine fun cfg bytes s => ⟨rfl, fun hr => ?_, fun hr => ?_, fun hr => load_refused (by simp [hr]), fun hr n => ?_⟩
  · by_cases hl : bytes.length ≤ 256
    · exact .inr ⟨_, load_ok hr hl, hr⟩
    · exact .inl (load_too_large hr (by omega))
  · have hc := canStep_iff.mpr hr
    obtain ⟨t, ht⟩ := stepWith_total (cfg := cfg) hc
    refine ⟨t, ht, stepWith_runState ht, fun hd => ?_⟩
    rw [stepWith_hlt hc hd] at ht
    cases ht
    rfl
  · have hc := canStep_eq_false_iff.mpr hr
    refine ⟨stepWith_refused hc, runFor_refused n hc, load_refused fun hready => ?_⟩
    rw [hready] at hc
    cases hc

end Sys2Proof.Proofs
end
